-- ==== Sys2Proof/Word.lean ====
section
/-! DEFINITION. The three value types of the engine: Word, Byte and the 64-bit BitCounter (spec 00_scope.md R6, R9). -/

namespace Sys2Proof

/-- An 8-bit unsigned byte (R9). -/
abbrev Byte := BitVec 8

/-- A 32-bit unsigned Word (R6, R9); its operation set stands in Machine/Datapath.lean (R100 to R107). -/
abbrev Word := BitVec 32

/-- The 64-bit unsigned BitCounter (R6, R23). -/
abbrev Counter := BitVec 64

end Sys2Proof
end

