-- ==== Sys2Proof/Syntax.lean ====
section
/-! DEFINITION. The instructions: one constructor per row of spec/opcode_table.json, the four host commands (30_encoding.md
R72) and the 64 internal transform steps (R79 to R81). -/

namespace Sys2Proof

/-- One constructor per row of the opcode table. `update` carries the CNT field of its command word (R73); its message
bytes are in the DATA register (R75). `stepN` is the row STEPN: application N of the step function inside a
BlockTransform (R137 to R141). -/
inductive Instr where
  | nop
  | init
  | update (cnt : BitVec 3)
  | finalize
  | step0
  | step1
  | step2
  | step3
  | step4
  | step5
  | step6
  | step7
  | step8
  | step9
  | step10
  | step11
  | step12
  | step13
  | step14
  | step15
  | step16
  | step17
  | step18
  | step19
  | step20
  | step21
  | step22
  | step23
  | step24
  | step25
  | step26
  | step27
  | step28
  | step29
  | step30
  | step31
  | step32
  | step33
  | step34
  | step35
  | step36
  | step37
  | step38
  | step39
  | step40
  | step41
  | step42
  | step43
  | step44
  | step45
  | step46
  | step47
  | step48
  | step49
  | step50
  | step51
  | step52
  | step53
  | step54
  | step55
  | step56
  | step57
  | step58
  | step59
  | step60
  | step61
  | step62
  | step63
  deriving DecidableEq, Repr

/-- The two encoded forms (R70): the 32-bit word of a CMD write, and the 6-bit internal step index. -/
inductive Encoded where
  | cmd (w : Word)
  | step (i : BitVec 6)
  deriving DecidableEq, Repr

end Sys2Proof
end

