-- ==== Sys2Proof/WellFormed.lean ====
section
/-! DEFINITION. Which instructions an encoding exists for. -/

namespace Sys2Proof

/-- UPDATE carries 0 to 4 bytes; CNT 5, 6 and 7 are illegal (30_encoding.md R73). Every other row has no operand. -/
def Instr.wellFormed : Instr → Bool
  | .update cnt => cnt.toNat ≤ 4
  | .nop => true
  | .init => true
  | .finalize => true
  | .step0 => true
  | .step1 => true
  | .step2 => true
  | .step3 => true
  | .step4 => true
  | .step5 => true
  | .step6 => true
  | .step7 => true
  | .step8 => true
  | .step9 => true
  | .step10 => true
  | .step11 => true
  | .step12 => true
  | .step13 => true
  | .step14 => true
  | .step15 => true
  | .step16 => true
  | .step17 => true
  | .step18 => true
  | .step19 => true
  | .step20 => true
  | .step21 => true
  | .step22 => true
  | .step23 => true
  | .step24 => true
  | .step25 => true
  | .step26 => true
  | .step27 => true
  | .step28 => true
  | .step29 => true
  | .step30 => true
  | .step31 => true
  | .step32 => true
  | .step33 => true
  | .step34 => true
  | .step35 => true
  | .step36 => true
  | .step37 => true
  | .step38 => true
  | .step39 => true
  | .step40 => true
  | .step41 => true
  | .step42 => true
  | .step43 => true
  | .step44 => true
  | .step45 => true
  | .step46 => true
  | .step47 => true
  | .step48 => true
  | .step49 => true
  | .step50 => true
  | .step51 => true
  | .step52 => true
  | .step53 => true
  | .step54 => true
  | .step55 => true
  | .step56 => true
  | .step57 => true
  | .step58 => true
  | .step59 => true
  | .step60 => true
  | .step61 => true
  | .step62 => true
  | .step63 => true

end Sys2Proof
end

