-- ==== Sys2Proof/Decode.lean ====
section
/-! DEFINITION. The decoder, total and rejecting by name (30_encoding.md R70 to R81), and after it the encoder. -/

namespace Sys2Proof

/-- Why a word or a byte sequence stands for no instruction. -/
inductive DecodeReject where
  /-- RSV (bits 23:3 of a command word) is not 0 (R74). -/
  | reservedBits
  /-- OPC is 0x04 to 0xFF (R72, R77). -/
  | reservedOpcode
  /-- CNT is 5, 6 or 7 with UPDATE, or not 0 with NOP, INIT or FINALIZE (R73). -/
  | badCount
  /-- Fewer bytes than the form has (R70). -/
  | tooShort
  /-- A byte that is no 6-bit step index (R70). -/
  | stepIndexRange
  deriving DecidableEq, Repr

/-- The fields of a command word (R71). -/
def cmdOpc (w : Word) : BitVec 8 := w.extractLsb' 24 8
def cmdRsv (w : Word) : BitVec 21 := w.extractLsb' 3 21
def cmdCnt (w : Word) : BitVec 3 := w.extractLsb' 0 3

/-- R76: RSV first, then OPC with its condition on CNT. Every rejection is the spec's ILLEGAL. -/
def decodeCmd (w : Word) : Except DecodeReject Instr :=
  if cmdRsv w ≠ 0 then .error .reservedBits
  else if cmdOpc w = 0x00 then
    if cmdCnt w = 0 then .ok .nop else .error .badCount
  else if cmdOpc w = 0x01 then
    if cmdCnt w = 0 then .ok .init else .error .badCount
  else if cmdOpc w = 0x02 then
    if (cmdCnt w).toNat ≤ 4 then .ok (.update (cmdCnt w)) else .error .badCount
  else if cmdOpc w = 0x03 then
    if cmdCnt w = 0 then .ok .finalize else .error .badCount
  else .error .reservedOpcode

/-- The STEP rows of the opcode table in the order of their index (R81), one list per round. -/
def stepRows0 : List Instr :=
  [.step0, .step1, .step2, .step3, .step4, .step5, .step6, .step7,
   .step8, .step9, .step10, .step11, .step12, .step13, .step14, .step15]

def stepRows1 : List Instr :=
  [.step16, .step17, .step18, .step19, .step20, .step21, .step22, .step23,
   .step24, .step25, .step26, .step27, .step28, .step29, .step30, .step31]

def stepRows2 : List Instr :=
  [.step32, .step33, .step34, .step35, .step36, .step37, .step38, .step39,
   .step40, .step41, .step42, .step43, .step44, .step45, .step46, .step47]

def stepRows3 : List Instr :=
  [.step48, .step49, .step50, .step51, .step52, .step53, .step54, .step55,
   .step56, .step57, .step58, .step59, .step60, .step61, .step62, .step63]

/-- All 64 STEP rows; entry i is the row of step index i (R79, R81). -/
def stepRows : List Instr := stepRows0 ++ stepRows1 ++ stepRows2 ++ stepRows3

/-- The STEP row of a step index (R79): every 6-bit index is one, so nothing is rejected. -/
def decodeStep (i : BitVec 6) : Instr := stepRows.getD i.toNat .step0

/-- The decoder over the two encoded forms. -/
def decode : Encoded → Except DecodeReject Instr
  | .cmd w => decodeCmd w
  | .step i => .ok (decodeStep i)

/-- The form an instruction word comes in: written to CMD by the host, or generated by a BlockTransform (R70). -/
inductive Form where
  | cmd
  | step
  deriving DecidableEq, Repr

/-- The Word whose bytes, lowest first, are the four given (little-endian, R53). -/
def cmdOfBytes (b0 b1 b2 b3 : Byte) : Word := b3 ++ b2 ++ b1 ++ b0

/-- Decoding from bytes: four little-endian bytes of a command word, or one byte holding a step index. It answers the
instruction and the bytes after it (DESIGN CHOICE, assumption 14). -/
def decodeBytes : Form → List Byte → Except DecodeReject (Instr × List Byte)
  | .cmd, b0 :: b1 :: b2 :: b3 :: rest =>
    match decode (.cmd (cmdOfBytes b0 b1 b2 b3)) with
    | .ok i => .ok (i, rest)
    | .error e => .error e
  | .cmd, _ => .error .tooShort
  | .step, b :: rest =>
    if b.toNat < 64 then
      match decode (.step (b.setWidth 6)) with
      | .ok i => .ok (i, rest)
      | .error e => .error e
    else .error .stepIndexRange
  | .step, [] => .error .tooShort

/-- A word of the opcode table as one of the two forms: a row of 32 bits is a command word, a shorter one a step index,
which the table's mask 0x3F confines to bits 5:0 (DEDUCED, assumption 11). -/
def Encoded.ofTableWord (nbits w : Nat) : Encoded :=
  if nbits < 32 then .step (BitVec.ofNat 6 w) else .cmd (BitVec.ofNat 32 w)

/-- The instruction this decoder reads from a word numbered as spec/opcode_table.json numbers it. -/
def decodeTableWord (nbits w : Nat) : Option Instr :=
  match decode (Encoded.ofTableWord nbits w) with
  | .ok i => some i
  | .error _ => none

/-- A command word from its fields (R71): OPC in 31:24, RSV 0, CNT in 2:0. -/
def cmdWord (opc : BitVec 8) (cnt : BitVec 3) : Word := opc ++ 0#21 ++ cnt

/-- The encoder, from the tables of R72 and R79. -/
def encode : Instr → Encoded
  | .nop => .cmd (cmdWord 0x00 0)
  | .init => .cmd (cmdWord 0x01 0)
  | .update cnt => .cmd (cmdWord 0x02 cnt)
  | .finalize => .cmd (cmdWord 0x03 0)
  | .step0 => .step 0#6
  | .step1 => .step 1#6
  | .step2 => .step 2#6
  | .step3 => .step 3#6
  | .step4 => .step 4#6
  | .step5 => .step 5#6
  | .step6 => .step 6#6
  | .step7 => .step 7#6
  | .step8 => .step 8#6
  | .step9 => .step 9#6
  | .step10 => .step 10#6
  | .step11 => .step 11#6
  | .step12 => .step 12#6
  | .step13 => .step 13#6
  | .step14 => .step 14#6
  | .step15 => .step 15#6
  | .step16 => .step 16#6
  | .step17 => .step 17#6
  | .step18 => .step 18#6
  | .step19 => .step 19#6
  | .step20 => .step 20#6
  | .step21 => .step 21#6
  | .step22 => .step 22#6
  | .step23 => .step 23#6
  | .step24 => .step 24#6
  | .step25 => .step 25#6
  | .step26 => .step 26#6
  | .step27 => .step 27#6
  | .step28 => .step 28#6
  | .step29 => .step 29#6
  | .step30 => .step 30#6
  | .step31 => .step 31#6
  | .step32 => .step 32#6
  | .step33 => .step 33#6
  | .step34 => .step 34#6
  | .step35 => .step 35#6
  | .step36 => .step 36#6
  | .step37 => .step 37#6
  | .step38 => .step 38#6
  | .step39 => .step 39#6
  | .step40 => .step 40#6
  | .step41 => .step 41#6
  | .step42 => .step 42#6
  | .step43 => .step 43#6
  | .step44 => .step 44#6
  | .step45 => .step 45#6
  | .step46 => .step 46#6
  | .step47 => .step 47#6
  | .step48 => .step 48#6
  | .step49 => .step 49#6
  | .step50 => .step 50#6
  | .step51 => .step 51#6
  | .step52 => .step 52#6
  | .step53 => .step 53#6
  | .step54 => .step 54#6
  | .step55 => .step 55#6
  | .step56 => .step 56#6
  | .step57 => .step 57#6
  | .step58 => .step 58#6
  | .step59 => .step 59#6
  | .step60 => .step 60#6
  | .step61 => .step 61#6
  | .step62 => .step 62#6
  | .step63 => .step 63#6

/-- The form of an encoded instruction. -/
def Encoded.form : Encoded → Form
  | .cmd _ => .cmd
  | .step _ => .step

/-- The bytes of an encoded instruction, as decodeBytes reads them. -/
def Encoded.bytes : Encoded → List Byte
  | .cmd w => [w.extractLsb' 0 8, w.extractLsb' 8 8, w.extractLsb' 16 8, w.extractLsb' 24 8]
  | .step i => [i.setWidth 8]

end Sys2Proof
end

