-- ==== Sys2Proof/Config.lean ====
section
/-! DEFINITION. The parameters the spec leaves OPEN (00_scope.md R7) and the one free value of the model. -/

namespace Sys2Proof

/-- LENGTH_OVERFLOW_POLICY (R7, R161, D11, U1): what an UPDATE does that takes the unbounded bit count of
the message to 2^64 or beyond. The spec's default is `wrap`. -/
inductive LengthOverflowPolicy where
  | wrap
  | refuse
  deriving DecidableEq, Repr, Inhabited

/-- SUBWORD_ACCESS_POLICY (R7, R58, D19, U14): what a byte, halfword or misaligned host access does.
The spec names one value, refusal, and gives no effect to any other. -/
inductive SubwordAccessPolicy where
  | refuse
  deriving DecidableEq, Repr, Inhabited

/-- The OPEN parameters of one engine instance that a step consults. A state carries its instance's
parameters, so a statement about every state holds for every value of them; no step writes them (DESIGN CHOICE,
assumptions 7 and 8). -/
structure Params where
  lengthOverflow : LengthOverflowPolicy
  subwordAccess  : SubwordAccessPolicy
  deriving DecidableEq, Repr, Inhabited

/-- The spec's defaults: wrap (D11) and refuse (D19). -/
def Config.defaults : Params := { lengthOverflow := .wrap, subwordAccess := .refuse }

/-- BUFFER_RESET_CONTENTS (R7, R37, D14, U7): what a pending-buffer offset reads as that nothing has written.
A FREE VALUE: it has no body, so no proof can see what it is (assumption 2). -/
opaque Config.bufferResetContents : Nat → Byte

end Sys2Proof
end

