-- ==== Sys2Proof/Machine/State.lean ====
section
/-! DEFINITION. The state, plain data: the spec's EngineState record (10_state.md R20), the working registers of a
transform (R30), the host's side of the bus (R52, R262), and the instance's parameters (R7). -/

namespace Sys2Proof.Machine

/-- Four Words under the names the spec gives them: the DigestState (A, B, C, D) of R21, or the working registers
(a, b, c, d) of R30. -/
structure Quad where
  a : Word
  b : Word
  c : Word
  d : Word
  deriving DecidableEq, Repr

/-- The lifecycle position (R26). STATUS shows it in two bits; the pattern 0b11 is no phase (U11). -/
inductive Phase where
  | active
  | done
  | error
  deriving DecidableEq, Repr

/-- The error kinds the hardware reports (60_exceptions.md R221). -/
inductive ErrorKind where
  | invalidBlockLength
  | invalidCodecLength
  | useAfterFinalize
  | illegalCommand
  deriving DecidableEq, Repr

/-- The pending buffer's storage (R25, R50): offset and byte pairs with rising offsets. An offset that is not listed
has never been written; it reads as the free value Config.bufferResetContents. -/
abbrev Memory := List Host.Cell

/-- EngineState, field for field (R20). -/
structure Engine where
  /-- A, B, C, D (R21). -/
  ds      : Quad
  /-- The BitCounter (R23). The fill level is derived from it (R24). -/
  cnt     : Counter
  /-- The PendingBuffer's 64 bytes (R25). -/
  buf     : Memory
  /-- R26. -/
  phase   : Phase
  /-- R27. -/
  errcode : BitVec 4
  /-- The host data register (R32). -/
  data    : Word
  /-- DIGEST[0..3] (R33). -/
  digest  : Vector Word 4
  deriving DecidableEq, Repr

/-- The width of a host access (R58): the engine serves `word` alone. -/
inductive Width where
  | byte
  | half
  | word
  deriving DecidableEq, Repr

/-- What the host does to the engine: a write or a read of the register map (R52), at a 5-bit byte address, or the
assertion of the reset input (R250). -/
inductive HostEvent where
  | write (width : Width) (addr : BitVec 5) (v : Word)
  | read (width : Width) (addr : BitVec 5)
  | reset
  deriving DecidableEq, Repr

/-- The machine: one engine, the registers of a transform taken step by step, and its host. -/
structure State where
  /-- EngineState (R20). -/
  engine  : Engine
  /-- The working registers a, b, c, d of a transform taken step by step (R30; DESIGN CHOICE, assumption 1). -/
  work    : Quad
  /-- The decoded message words x[0..15] of that transform (R30, R142). -/
  x       : Vector Word 16
  /-- The step index i (R28): `some i` while a transform is in progress and STEP i is next, `none` between transforms. -/
  seq     : Option (Fin 64)
  /-- The host's accesses not yet served, in the order issued (R64; DESIGN CHOICE, assumption 6). -/
  pending : List HostEvent
  /-- The values the reads returned so far, oldest first (R262). -/
  reads   : List Word
  /-- The OPEN parameters of the instance (R7); no step writes them. -/
  params  : Params
  deriving DecidableEq, Repr

/-- Why the machine stops with a fault. No state of the machine reaches one (R223). -/
inductive Fault where
  /-- Raised by the buffer primitives of Machine/Ops.lean for an offset outside 0..63 (20_memory.md R51). Safe. -/
  | bufferOffset
  /-- Raised by finalize when its last update leaves a partly filled buffer (R168's assert, R223). Safe. -/
  | finalizeAssert
  deriving DecidableEq, Repr

/-- Why the machine refuses a step. -/
inductive Refusal where
  /-- Raised by exec for an instruction that has no meaning yet; no arm of exec raises it now. Safe. -/
  | notModelled (mnemonic : String)
  /-- Raised by a byte, halfword or misaligned host access under SUBWORD_ACCESS_POLICY = refuse (R58, D19). Safe. -/
  | subwordAccess
  /-- Raised by an UPDATE that takes the message to 2^64 bits under LENGTH_OVERFLOW_POLICY = refuse (R161, D11). Safe. -/
  | lengthOverflow
  deriving DecidableEq, Repr

/-- The initial DigestState (R22). -/
def initialDigestState : Quad :=
  { a := 0x67452301, b := 0xEFCDAB89, c := 0x98BADCFE, d := 0x10325476 }

/-- The EngineState after reset (R37). No offset of Buf is listed: its bytes are BUFFER_RESET_CONTENTS. -/
def Engine.reset : Engine where
  ds := initialDigestState
  cnt := 0
  buf := []
  phase := .active
  errcode := 0
  data := 0
  digest := #v[0, 0, 0, 0]

/-- The machine right after reset (R37, R251). The working registers hold 0 (assumption 3), no transform is in
progress, and the host has issued nothing. -/
def State.reset : State where
  engine := Engine.reset
  work := { a := 0, b := 0, c := 0, d := 0 }
  x := #v[0, 0, 0, 0, 0, 0, 0, 0, 0, 0, 0, 0, 0, 0, 0, 0]
  seq := none
  pending := []
  reads := []
  params := Config.defaults

/-- Writes of one field of EngineState. -/
def Engine.setDs (e : Engine) (q : Quad) : Engine := { e with ds := q }
def Engine.setCnt (e : Engine) (n : Counter) : Engine := { e with cnt := n }
def Engine.setBuf (e : Engine) (m : Memory) : Engine := { e with buf := m }
def Engine.setPhase (e : Engine) (p : Phase) : Engine := { e with phase := p }
def Engine.setErrcode (e : Engine) (c : BitVec 4) : Engine := { e with errcode := c }
def Engine.setData (e : Engine) (v : Word) : Engine := { e with data := v }
def Engine.setDigest (e : Engine) (v : Vector Word 4) : Engine := { e with digest := v }

/-- Writes of one field of the machine's state. -/
def State.setEngine (s : State) (e : Engine) : State := { s with engine := e }
def State.setWork (s : State) (q : Quad) : State := { s with work := q }
def State.setX (s : State) (v : Vector Word 16) : State := { s with x := v }
def State.setSeq (s : State) (i : Option (Fin 64)) : State := { s with seq := i }
def State.setPending (s : State) (l : List HostEvent) : State := { s with pending := l }
def State.setReads (s : State) (l : List Word) : State := { s with reads := l }

end Sys2Proof.Machine
end

