-- ==== Sys2Proof/Machine/Flags.lean ====
section
/-! DEFINITION. The engine has no condition codes (10_state.md R36). What a host can observe of its status is the STATUS
word, computed from the phase and the error code (R34). -/

namespace Sys2Proof.Machine

/-- The encoding of the phase in STATUS[2:1] (R26). -/
def Phase.code : Phase → BitVec 2
  | .active => 0b00
  | .done => 0b01
  | .error => 0b10

/-- The code an error is recorded under in errcode (60_exceptions.md R221). -/
def ErrorKind.code : ErrorKind → BitVec 4
  | .invalidBlockLength => 1
  | .invalidCodecLength => 2
  | .useAfterFinalize => 3
  | .illegalCommand => 4

/-- BUSY: every command completes within its CMD write, and no read is served while a transform is in progress, so a
host always reads 0 (R34, R256). -/
def busyBit : BitVec 1 := 0

/-- STATUS = `{24'b0, errcode[3:0], 1'b0, phase[1:0], BUSY}` (R34, R196). -/
def statusWord (e : Engine) : Word := 0#24 ++ e.errcode ++ 0#1 ++ e.phase.code ++ busyBit

end Sys2Proof.Machine
end

