-- ==== Sys2Proof/Machine/Codec.lean ====
section
/-! DEFINITION. The little-endian codec (41_codec.md R120 to R122). -/

namespace Sys2Proof.Machine

/-- Why an internal operation does not complete: it raises an error of R221, or an internal condition fails that the
engine's own logic guarantees (R12, R223). -/
inductive Abort where
  | raised (k : ErrorKind)
  | faulted (f : Fault)
  deriving DecidableEq, Repr

/-- The four bytes of a Word, least significant first (R120). -/
def wordBytes (w : Word) : List Byte :=
  [w.extractLsb' 0 8, w.extractLsb' 8 8, w.extractLsb' 16 8, w.extractLsb' 24 8]

/-- The Word `{b3, b2, b1, b0}` (R121). -/
def bytesWord (b0 b1 b2 b3 : Byte) : Word := b3 ++ b2 ++ b1 ++ b0

/-- encode (R120). -/
def encodeWords (ws : List Word) : List Byte := ws.flatMap wordBytes

/-- The Words of consecutive groups of four bytes, in order. -/
def groupWords : List Byte → List Word
  | b0 :: b1 :: b2 :: b3 :: rest => bytesWord b0 b1 b2 b3 :: groupWords rest
  | _ => []

/-- decode (R121): it raises InvalidCodecLength when the length is no multiple of 4 (R122). -/
def decodeWords (bs : List Byte) : Except Abort (List Word) :=
  if bs.length % 4 ≠ 0 then .error (.raised .invalidCodecLength) else .ok (groupWords bs)

end Sys2Proof.Machine
end

