-- ==== Sys2Proof/Machine/Operands.lean ====
section
/-! DEFINITION. The one operand form of a command, UPDATE's bytes in DATA (30_encoding.md R75); the values derived from the
BitCounter (10_state.md R24, 20_memory.md R56); and the padding (43_engine.md R166, R168). -/

namespace Sys2Proof.Machine

/-- bytes(DATA, CNT) = `[DATA[7:0], DATA[15:8], DATA[23:16], DATA[31:24]][0:CNT]` (R75, R54). -/
def dataBytes (data : Word) (cnt : BitVec 3) : List Byte := (wordBytes data).take cnt.toNat

/-- index = (cnt >> 3) mod 64, the fill level in bytes (R24). -/
def fillLevel (cnt : Counter) : Nat := (cnt.toNat >>> 3) % 64

/-- cnt +64 8·len, exact mod 2^64 (R161). -/
def advanceCounter (cnt : Counter) (len : Nat) : Counter := cnt + BitVec.ofNat 64 (8 * len)

/-- Whether len more bytes take the unbounded bit count to 2^64 or beyond (R161, D11). -/
def lengthOverflows (cnt : Counter) (len : Nat) : Bool := 2 ^ 64 ≤ cnt.toNat + 8 * len

/-- cnt_lo and cnt_hi (R23). -/
def cntLo (cnt : Counter) : Word := cnt.extractLsb' 0 32
def cntHi (cnt : Counter) : Word := cnt.extractLsb' 32 32

/-- The length field encode([cnt_lo, cnt_hi]), 8 bytes (R56, R168). -/
def lengthField (cnt : Counter) : List Byte := encodeWords [cntLo cnt, cntHi cnt]

/-- padLen of a fill level: `(index < 56 ? 56 : 120) - index` (R166). -/
def padLen (index : Nat) : Nat := (if index < 56 then 56 else 120) - index

/-- PADDING: one byte 0x80 followed by 63 bytes 0x00 (R6, R166). -/
def padding : List Byte := 0x80 :: List.replicate 63 0x00

end Sys2Proof.Machine
end

