-- ==== Sys2Proof/Machine/Datapath.lean ====
section
/-! DEFINITION. The Word operations (40_word.md R100 to R107) and the four nonlinear functions (42_transform.md R130 to R133). -/

namespace Sys2Proof.Machine

/-- R100: the sum mod 2^32; the carry out is discarded. -/
def wAdd (x y : Word) : Word := x + y

/-- R101. -/
def wAnd (x y : Word) : Word := x &&& y

/-- R102. -/
def wOr (x y : Word) : Word := x ||| y

/-- R103. -/
def wXor (x y : Word) : Word := x ^^^ y

/-- R104: all 32 bits complemented. -/
def wNot (x : Word) : Word := ~~~x

/-- R105: zeros enter at bit 0; the result is 0 for n ≥ 32 (D12). -/
def wShl (x : Word) (n : Nat) : Word := x <<< n

/-- R106: zeros enter at bit 31; the result is 0 for n ≥ 32 (D12). -/
def wLshr (x : Word) (n : Nat) : Word := x >>> n

/-- R107: `shl(x, n) | lshr(x, 32 - n)`, for 0 ≤ n < 32. -/
def rotl (x : Word) (n : Fin 32) : Word := wOr (wShl x n.val) (wLshr x (32 - n.val))

/-- R107 on any natural: an amount outside the defined domain is refused (D12, U5). -/
def rotlNat (x : Word) (n : Nat) : Option Word :=
  if h : n < 32 then some (rotl x ⟨n, h⟩) else none

/-- R130: `(x & y) | (~x & z)`. -/
def fnF (x y z : Word) : Word := wOr (wAnd x y) (wAnd (wNot x) z)

/-- R131: `(x & z) | (y & ~z)`. -/
def fnG (x y z : Word) : Word := wOr (wAnd x z) (wAnd y (wNot z))

/-- R132: `x ^ y ^ z`. -/
def fnH (x y z : Word) : Word := wXor (wXor x y) z

/-- R133: `y ^ (x | ~z)`. -/
def fnI (x y z : Word) : Word := wXor y (wOr x (wNot z))

end Sys2Proof.Machine
end

