-- ==== Sys2Proof/Machine/Tables.lean ====
section
/-! DEFINITION. The read-only constant tables of the transform: T, S and k (10_state.md R31), and the fields of a step
index (30_encoding.md R79). -/

namespace Sys2Proof.Machine

/-- T[0..63], one list per round (42_transform.md R134). -/
def addConsts0 : List Word :=
  [0xD76AA478, 0xE8C7B756, 0x242070DB, 0xC1BDCEEE,
   0xF57C0FAF, 0x4787C62A, 0xA8304613, 0xFD469501,
   0x698098D8, 0x8B44F7AF, 0xFFFF5BB1, 0x895CD7BE,
   0x6B901122, 0xFD987193, 0xA679438E, 0x49B40821]

def addConsts1 : List Word :=
  [0xF61E2562, 0xC040B340, 0x265E5A51, 0xE9B6C7AA,
   0xD62F105D, 0x02441453, 0xD8A1E681, 0xE7D3FBC8,
   0x21E1CDE6, 0xC33707D6, 0xF4D50D87, 0x455A14ED,
   0xA9E3E905, 0xFCEFA3F8, 0x676F02D9, 0x8D2A4C8A]

def addConsts2 : List Word :=
  [0xFFFA3942, 0x8771F681, 0x6D9D6122, 0xFDE5380C,
   0xA4BEEA44, 0x4BDECFA9, 0xF6BB4B60, 0xBEBFBC70,
   0x289B7EC6, 0xEAA127FA, 0xD4EF3085, 0x04881D05,
   0xD9D4D039, 0xE6DB99E5, 0x1FA27CF8, 0xC4AC5665]

def addConsts3 : List Word :=
  [0xF4292244, 0x432AFF97, 0xAB9423A7, 0xFC93A039,
   0x655B59C3, 0x8F0CCC92, 0xFFEFF47D, 0x85845DD1,
   0x6FA87E4F, 0xFE2CE6E0, 0xA3014314, 0x4E0811A1,
   0xF7537E82, 0xBD3AF235, 0x2AD7D2BB, 0xEB86D391]

/-- The 64-entry additive-constant table (R134). -/
def addConsts : List Word := addConsts0 ++ addConsts1 ++ addConsts2 ++ addConsts3

/-- T[i] (R134). -/
def addConst (i : Fin 64) : Word := addConsts.getD i.val 0

/-- The round r = i[5:4] (R79). -/
def roundOf (i : Fin 64) : Nat := i.val / 16

/-- The four rotation quadruples S, in the order written (R135). -/
def rotQuads : List (List (Fin 32)) :=
  [[7, 12, 17, 22], [5, 9, 14, 20], [4, 11, 16, 23], [6, 10, 15, 21]]

/-- s(i) = S[i div 16][i mod 4] (R79, R135). -/
def rotAmount (i : Fin 64) : Fin 32 := (rotQuads.getD (roundOf i) []).getD (i.val % 4) 0

/-- k(i), the message-word index (R80, R136). -/
def msgIndex (i : Fin 64) : Fin 16 :=
  match roundOf i with
  | 0 => ⟨i.val % 16, Nat.mod_lt _ (by decide)⟩
  | 1 => ⟨(1 + 5 * i.val) % 16, Nat.mod_lt _ (by decide)⟩
  | 2 => ⟨(5 + 3 * i.val) % 16, Nat.mod_lt _ (by decide)⟩
  | _ => ⟨(7 * i.val) % 16, Nat.mod_lt _ (by decide)⟩

/-- fn(r): F, G, H, I for r = 0, 1, 2, 3 (R79). -/
def roundFn (i : Fin 64) : Word → Word → Word → Word :=
  match roundOf i with
  | 0 => fnF
  | 1 => fnG
  | 2 => fnH
  | _ => fnI

end Sys2Proof.Machine
end

