-- ==== Sys2Proof/Machine/Transform.lean ====
section
/-! DEFINITION. The step function and the 64-step BlockTransform (42_transform.md R137 to R145), pure functions of their
arguments. -/

namespace Sys2Proof.Machine

/-- Componentwise addition mod 2^32: the feed-forward of R144. -/
def Quad.add (p q : Quad) : Quad :=
  { a := wAdd p.a q.a, b := wAdd p.b q.b, c := wAdd p.c q.c, d := wAdd p.d q.d }

/-- The step of R137 with its function, message-word index, rotation and constant given:
`tmp = rotl(a + fn(b, c, d) + x[k] + t, n) + b`, and the new registers are `(d, tmp, b, c)` (R13). -/
def mixStep (fn : Word → Word → Word → Word) (k : Fin 16) (n : Fin 32) (t : Word)
    (q : Quad) (x : Vector Word 16) : Quad :=
  let sum := wAdd (wAdd (wAdd q.a (fn q.b q.c q.d)) (x.get k)) t
  { a := q.d, b := wAdd (rotl sum n) q.b, c := q.b, d := q.c }

/-- step(i, (a, b, c, d), x) (R137). -/
def stepFn (i : Fin 64) (q : Quad) (x : Vector Word 16) : Quad :=
  mixStep (roundFn i) (msgIndex i) (rotAmount i) (addConst i) q x

/-- The step indices in the order a transform generates them: 0, 1, …, 63 (R28, R142). -/
def stepOrder : List (Fin 64) := List.finRange 64

/-- The 64 steps from the working registers q (R142). -/
def runSteps (q : Quad) (x : Vector Word 16) : Quad :=
  stepOrder.foldl (fun r i => stepFn i r x) q

/-- The first sixteen Words of a decoded block, as x[0..15] (R142). A block of 64 bytes decodes to exactly sixteen. -/
def messageWords (ws : List Word) : Vector Word 16 :=
  #v[ws.getD 0 0, ws.getD 1 0, ws.getD 2 0, ws.getD 3 0, ws.getD 4 0, ws.getD 5 0, ws.getD 6 0, ws.getD 7 0,
     ws.getD 8 0, ws.getD 9 0, ws.getD 10 0, ws.getD 11 0, ws.getD 12 0, ws.getD 13 0, ws.getD 14 0, ws.getD 15 0]

/-- The 64 steps on sixteen message words and the one feed-forward addition (R142, R144). -/
def compress (q : Quad) (x : Vector Word 16) : Quad := q.add (runSteps q x)

/-- BlockTransform (R142): a block of another length than 64 raises InvalidBlockLength (R143). -/
def blockTransform (q : Quad) (block : List Byte) : Except Abort Quad :=
  if block.length ≠ 64 then .error (.raised .invalidBlockLength)
  else
    match decodeWords block with
    | .error e => .error e
    | .ok ws => .ok (compress q (messageWords ws))

end Sys2Proof.Machine
end

