-- ==== Sys2Proof/Machine/Ops.lean ====
section
/-! DEFINITION. The shared operations over the pending buffer (20_memory.md R51), the error entry and the return from it
(60_exceptions.md R224, R229), and one step of a transform on the working registers (42_transform.md R137). -/

namespace Sys2Proof.Machine

/-- The bytes of the pending buffer (R25). -/
def bufSize : Nat := 64

/-- The byte listed at an offset, if any. -/
def Memory.find (m : Memory) (j : Nat) : Option Byte :=
  match m with
  | [] => none
  | (k, b) :: rest => if k = j then some b else Memory.find rest j

/-- Buf[j] (R51). An offset never written reads as BUFFER_RESET_CONTENTS (R37), a free value. -/
def Memory.byteAt (m : Memory) (j : Nat) : Byte := (m.find j).getD (Config.bufferResetContents j)

/-- The list with the byte at one offset set, the offsets kept rising. -/
def Memory.put (m : Memory) (j : Nat) (b : Byte) : Memory :=
  match m with
  | [] => [(j, b)]
  | (k, c) :: rest =>
    if j < k then (j, b) :: (k, c) :: rest
    else if j = k then (j, b) :: rest
    else (k, c) :: Memory.put rest j b

/-- The offsets rise strictly from lo on and lie in the buffer. -/
def Memory.risingFrom (lo : Nat) (m : Memory) : Bool :=
  match m with
  | [] => true
  | (k, _) :: rest => decide (lo ≤ k) && decide (k < bufSize) && Memory.risingFrom (k + 1) rest

/-- The canonical form: offsets strictly rising, all of them in 0..63. An unlisted offset has no byte of its own, so no
entry equals it. -/
def Memory.wf (m : Memory) : Bool := Memory.risingFrom 0 m

/-- Buf[j] <- b; an offset outside 0..63 faults (R51). -/
def bufPut (m : Memory) (j : Nat) (b : Byte) : Except Abort Memory :=
  if j < bufSize then .ok (m.put j b) else .error (.faulted .bufferOffset)

/-- Buf[lo:lo+len(s)] <- s, the first byte at lo (R51). -/
def bufWrite (m : Memory) (lo : Nat) (s : List Byte) : Except Abort Memory :=
  match s with
  | [] => .ok m
  | b :: rest =>
    match bufPut m lo b with
    | .error e => .error e
    | .ok m' => bufWrite m' (lo + 1) rest

/-- Buf[0:n] (R51). -/
def bufRead (m : Memory) (n : Nat) : List Byte := (List.range n).map m.byteAt

/-- Buf[0:64], the whole array (R51). -/
def bufBlock (m : Memory) : List Byte := bufRead m bufSize

/-- Error entry, `raise k` (R224): errcode and phase are written, and nothing else. -/
def Engine.raise (e : Engine) (k : ErrorKind) : Engine := (e.setErrcode k.code).setPhase .error

/-- Error entry in the machine (R224). -/
def State.raise (s : State) (k : ErrorKind) : State := s.setEngine (s.engine.raise k)

/-- What INIT and reset write (R192, R250, R229): every field of EngineState but Buf. It is also the only return from
the ERROR phase. -/
def Engine.reinit (e : Engine) : Engine :=
  { e with ds := initialDigestState, cnt := 0, phase := .active, errcode := 0, data := 0, digest := #v[0, 0, 0, 0] }

/-- How an internal operation ends a command: its new engine state is committed, an error it raised is entered with no
other effect (R224, R228), and a failed internal condition is a fault (R51, R223). Neither of the last two is reachable
(DESIGN CHOICE, assumption 9). -/
def State.commit (s : State) (r : Except Abort Engine) : Host.Outcome State Fault Refusal :=
  match r with
  | .ok e => .next (s.setEngine e)
  | .error (.raised k) => .next (s.raise k)
  | .error (.faulted f) => .fault f

/-- One step of a transform on the working registers a, b, c, d, with the nonlinear function of its round
(R137 to R141). The DigestState, the message words and everything else stay as they are. -/
def State.mix (s : State) (fn : Word → Word → Word → Word) (i : Fin 64) : State :=
  s.setWork (mixStep fn (msgIndex i) (rotAmount i) (addConst i) s.work s.x)

/-- The start of a transform taken step by step (R142): the working registers are loaded from the DigestState, the
message words from the block, and the step index starts at 0 (R28). -/
def State.beginTransform (s : State) (block : List Byte) : Except Abort State :=
  if block.length ≠ 64 then .error (.raised .invalidBlockLength)
  else
    match decodeWords block with
    | .error e => .error e
    | .ok ws => .ok (((s.setWork s.engine.ds).setX (messageWords ws)).setSeq (some 0))

/-- What follows STEP i of a transform in progress: the step index advances by exactly 1 (R28), and after STEP 63 the
feed-forward addition is written to the DigestState (R144) and the transform is over. -/
def State.sequence (s : State) (i : Fin 64) : State :=
  if h : i.val + 1 < 64 then s.setSeq (some ⟨i.val + 1, h⟩)
  else (s.setEngine (s.engine.setDs (s.engine.ds.add s.work))).setSeq none

end Sys2Proof.Machine
end

