-- ==== Sys2Proof/Machine/Engine.lean ====
section
/-! DEFINITION. The streaming engine: update, padding and finalize (43_engine.md R160 to R169). -/

namespace Sys2Proof.Machine

/-- The direct chunks of R163: BlockTransform on n consecutive 64-byte pieces of the input, in order. It answers the new
DigestState and the input left over. -/
def directChunks (n : Nat) (q : Quad) (input : List Byte) : Except Abort (Quad × List Byte) :=
  match n with
  | 0 => .ok (q, input)
  | n + 1 =>
    match blockTransform q (input.take 64) with
    | .error e => .error e
    | .ok q' => directChunks n q' (input.drop 64)

/-- The part of update that runs once the buffer is complete (R162, R163, R164): one BlockTransform on Buf[0:64], then
the direct chunks, then the tail to offset 0. -/
def dispatch (e : Engine) (buf : Memory) (rest : List Byte) : Except Abort Engine :=
  match blockTransform e.ds (bufBlock buf) with
  | .error a => .error a
  | .ok q =>
    match directChunks (rest.length / 64) q rest with
    | .error a => .error a
    | .ok (q', tail) =>
      match bufWrite buf 0 tail with
      | .error a => .error a
      | .ok buf' => .ok ((e.setDs q').setBuf buf')

/-- update(st, input) (R160): the fill level is read before the counter advances (R161). Input that does not complete
the buffer is appended to it (R164); input that does is dispatched (R162). -/
def update (e : Engine) (input : List Byte) : Except Abort Engine :=
  let index := fillLevel e.cnt
  let counted := e.setCnt (advanceCounter e.cnt input.length)
  let partLen := 64 - index
  if input.length < partLen then
    match bufWrite e.buf index input with
    | .error a => .error a
    | .ok buf => .ok (counted.setBuf buf)
  else
    match bufWrite e.buf index (input.take partLen) with
    | .error a => .error a
    | .ok buf => dispatch counted buf (input.drop partLen)

/-- The 16-byte digest encode([A, B, C, D]) (R55, R168). -/
def digestBytes (q : Quad) : List Byte := encodeWords [q.a, q.b, q.c, q.d]

/-- finalize(st) (R168): the length field is captured before padding; two updates, padding and length; the assert that
the last one completes a block (R223). It answers the engine state and the digest. -/
def finalize (e : Engine) : Except Abort (Engine × List Byte) :=
  let bits := lengthField e.cnt
  match update e (padding.take (padLen (fillLevel e.cnt))) with
  | .error a => .error a
  | .ok e1 =>
    match update e1 bits with
    | .error a => .error a
    | .ok e2 =>
      if fillLevel e2.cnt = 0 then .ok (e2, digestBytes e2.ds) else .error (.faulted .finalizeAssert)

/-- DIGEST <- [A, B, C, D] (R33, R194). -/
def Engine.publish (e : Engine) : Engine :=
  (e.setDigest #v[e.ds.a, e.ds.b, e.ds.c, e.ds.d]).setPhase .done

/-- hash(bytes) (R169): a fresh engine, one update with all the bytes, one finalize. -/
def hashMessage (bytes : List Byte) : Except Abort (List Byte) :=
  match update Engine.reset bytes with
  | .error a => .error a
  | .ok e =>
    match finalize e with
    | .error a => .error a
    | .ok (_, d) => .ok d

end Sys2Proof.Machine
end

