-- ==== Sys2Proof/Machine/Commands.lean ====
section
/-! DEFINITION. The meanings of the four host commands NOP, INIT, UPDATE and FINALIZE (44_commands.md R190 to R194), in every
phase (60_exceptions.md R225, R226, R227). -/

namespace Sys2Proof.Machine

/-- NOP (R191): no state changes, in every phase. -/
def execNop (s : State) : Host.Outcome State Fault Refusal := .next s

/-- INIT (R192): legal in every phase, and the only command that has an effect in ERROR (R225, R229). -/
def execInit (s : State) : Host.Outcome State Fault Refusal := .next (s.setEngine s.engine.reinit)

/-- UPDATE in phase ACTIVE: the LENGTH_OVERFLOW_POLICY is consulted only when the message reaches 2^64 bits (R161, D11);
then update absorbs the CNT bytes of DATA (R193). FINALIZE's own updates consult no policy (DEDUCED, assumption 7). -/
def absorb (s : State) (bytes : List Byte) : Host.Outcome State Fault Refusal :=
  if lengthOverflows s.engine.cnt bytes.length ∧ s.params.lengthOverflow = .refuse then .refused .lengthOverflow
  else s.commit (update s.engine bytes)

/-- UPDATE (R193). In ERROR it is ignored (R225); CNT 5 to 7, which the decoder never yields, is ILLEGAL_COMMAND, checked
before the phase (R226; DEDUCED, assumption 12); in DONE it raises USE_AFTER_FINALIZE, whatever CNT (R227). -/
def execUpdate (cnt : BitVec 3) (s : State) : Host.Outcome State Fault Refusal :=
  match s.engine.phase with
  | .error => .next s
  | .done => .next (s.raise (if cnt.toNat ≤ 4 then .useAfterFinalize else .illegalCommand))
  | .active =>
    if cnt.toNat ≤ 4 then absorb s (dataBytes s.engine.data cnt) else .next (s.raise .illegalCommand)

/-- FINALIZE (R194). In ERROR it is ignored (R225); in DONE it raises USE_AFTER_FINALIZE (R227); in ACTIVE it finalizes,
writes DIGEST and enters DONE. -/
def execFinalize (s : State) : Host.Outcome State Fault Refusal :=
  match s.engine.phase with
  | .error => .next s
  | .done => .next (s.raise .useAfterFinalize)
  | .active =>
    match finalize s.engine with
    | .ok (e, _) => s.commit (.ok e.publish)
    | .error a => s.commit (.error a)

end Sys2Proof.Machine
end

