-- ==== Sys2Proof/Machine/RoundF.lean ====
section
/-! DEFINITION. The meanings of the F-round steps STEP0 to STEP15 (42_transform.md R138): the working registers a, b, c, d take
the step's values, and nothing else changes. -/

namespace Sys2Proof.Machine

/-- STEP0 (R138). -/
def execStep0 (s : State) : Host.Outcome State Fault Refusal := .next (s.mix fnF 0)

/-- STEP1 (R138). -/
def execStep1 (s : State) : Host.Outcome State Fault Refusal := .next (s.mix fnF 1)

/-- STEP2 (R138). -/
def execStep2 (s : State) : Host.Outcome State Fault Refusal := .next (s.mix fnF 2)

/-- STEP3 (R138). -/
def execStep3 (s : State) : Host.Outcome State Fault Refusal := .next (s.mix fnF 3)

/-- STEP4 (R138). -/
def execStep4 (s : State) : Host.Outcome State Fault Refusal := .next (s.mix fnF 4)

/-- STEP5 (R138). -/
def execStep5 (s : State) : Host.Outcome State Fault Refusal := .next (s.mix fnF 5)

/-- STEP6 (R138). -/
def execStep6 (s : State) : Host.Outcome State Fault Refusal := .next (s.mix fnF 6)

/-- STEP7 (R138). -/
def execStep7 (s : State) : Host.Outcome State Fault Refusal := .next (s.mix fnF 7)

/-- STEP8 (R138). -/
def execStep8 (s : State) : Host.Outcome State Fault Refusal := .next (s.mix fnF 8)

/-- STEP9 (R138). -/
def execStep9 (s : State) : Host.Outcome State Fault Refusal := .next (s.mix fnF 9)

/-- STEP10 (R138). -/
def execStep10 (s : State) : Host.Outcome State Fault Refusal := .next (s.mix fnF 10)

/-- STEP11 (R138). -/
def execStep11 (s : State) : Host.Outcome State Fault Refusal := .next (s.mix fnF 11)

/-- STEP12 (R138). -/
def execStep12 (s : State) : Host.Outcome State Fault Refusal := .next (s.mix fnF 12)

/-- STEP13 (R138). -/
def execStep13 (s : State) : Host.Outcome State Fault Refusal := .next (s.mix fnF 13)

/-- STEP14 (R138). -/
def execStep14 (s : State) : Host.Outcome State Fault Refusal := .next (s.mix fnF 14)

/-- STEP15 (R138). -/
def execStep15 (s : State) : Host.Outcome State Fault Refusal := .next (s.mix fnF 15)

end Sys2Proof.Machine
end

