-- ==== Sys2Proof/Machine/RoundG.lean ====
section
/-! DEFINITION. The meanings of the G-round steps STEP16 to STEP31 (42_transform.md R139): the working registers a, b, c, d take
the step's values, and nothing else changes. -/

namespace Sys2Proof.Machine

/-- STEP16 (R139). -/
def execStep16 (s : State) : Host.Outcome State Fault Refusal := .next (s.mix fnG 16)

/-- STEP17 (R139). -/
def execStep17 (s : State) : Host.Outcome State Fault Refusal := .next (s.mix fnG 17)

/-- STEP18 (R139). -/
def execStep18 (s : State) : Host.Outcome State Fault Refusal := .next (s.mix fnG 18)

/-- STEP19 (R139). -/
def execStep19 (s : State) : Host.Outcome State Fault Refusal := .next (s.mix fnG 19)

/-- STEP20 (R139). -/
def execStep20 (s : State) : Host.Outcome State Fault Refusal := .next (s.mix fnG 20)

/-- STEP21 (R139). -/
def execStep21 (s : State) : Host.Outcome State Fault Refusal := .next (s.mix fnG 21)

/-- STEP22 (R139). -/
def execStep22 (s : State) : Host.Outcome State Fault Refusal := .next (s.mix fnG 22)

/-- STEP23 (R139). -/
def execStep23 (s : State) : Host.Outcome State Fault Refusal := .next (s.mix fnG 23)

/-- STEP24 (R139). -/
def execStep24 (s : State) : Host.Outcome State Fault Refusal := .next (s.mix fnG 24)

/-- STEP25 (R139). -/
def execStep25 (s : State) : Host.Outcome State Fault Refusal := .next (s.mix fnG 25)

/-- STEP26 (R139). -/
def execStep26 (s : State) : Host.Outcome State Fault Refusal := .next (s.mix fnG 26)

/-- STEP27 (R139). -/
def execStep27 (s : State) : Host.Outcome State Fault Refusal := .next (s.mix fnG 27)

/-- STEP28 (R139). -/
def execStep28 (s : State) : Host.Outcome State Fault Refusal := .next (s.mix fnG 28)

/-- STEP29 (R139). -/
def execStep29 (s : State) : Host.Outcome State Fault Refusal := .next (s.mix fnG 29)

/-- STEP30 (R139). -/
def execStep30 (s : State) : Host.Outcome State Fault Refusal := .next (s.mix fnG 30)

/-- STEP31 (R139). -/
def execStep31 (s : State) : Host.Outcome State Fault Refusal := .next (s.mix fnG 31)

end Sys2Proof.Machine
end

