-- ==== Sys2Proof/Machine/RoundH.lean ====
section
/-! DEFINITION. The meanings of the H-round steps STEP32 to STEP47 (42_transform.md R140): the working registers a, b, c, d take
the step's values, and nothing else changes. -/

namespace Sys2Proof.Machine

/-- STEP32 (R140). -/
def execStep32 (s : State) : Host.Outcome State Fault Refusal := .next (s.mix fnH 32)

/-- STEP33 (R140). -/
def execStep33 (s : State) : Host.Outcome State Fault Refusal := .next (s.mix fnH 33)

/-- STEP34 (R140). -/
def execStep34 (s : State) : Host.Outcome State Fault Refusal := .next (s.mix fnH 34)

/-- STEP35 (R140). -/
def execStep35 (s : State) : Host.Outcome State Fault Refusal := .next (s.mix fnH 35)

/-- STEP36 (R140). -/
def execStep36 (s : State) : Host.Outcome State Fault Refusal := .next (s.mix fnH 36)

/-- STEP37 (R140). -/
def execStep37 (s : State) : Host.Outcome State Fault Refusal := .next (s.mix fnH 37)

/-- STEP38 (R140). -/
def execStep38 (s : State) : Host.Outcome State Fault Refusal := .next (s.mix fnH 38)

/-- STEP39 (R140). -/
def execStep39 (s : State) : Host.Outcome State Fault Refusal := .next (s.mix fnH 39)

/-- STEP40 (R140). -/
def execStep40 (s : State) : Host.Outcome State Fault Refusal := .next (s.mix fnH 40)

/-- STEP41 (R140). -/
def execStep41 (s : State) : Host.Outcome State Fault Refusal := .next (s.mix fnH 41)

/-- STEP42 (R140). -/
def execStep42 (s : State) : Host.Outcome State Fault Refusal := .next (s.mix fnH 42)

/-- STEP43 (R140). -/
def execStep43 (s : State) : Host.Outcome State Fault Refusal := .next (s.mix fnH 43)

/-- STEP44 (R140). -/
def execStep44 (s : State) : Host.Outcome State Fault Refusal := .next (s.mix fnH 44)

/-- STEP45 (R140). -/
def execStep45 (s : State) : Host.Outcome State Fault Refusal := .next (s.mix fnH 45)

/-- STEP46 (R140). -/
def execStep46 (s : State) : Host.Outcome State Fault Refusal := .next (s.mix fnH 46)

/-- STEP47 (R140). -/
def execStep47 (s : State) : Host.Outcome State Fault Refusal := .next (s.mix fnH 47)

end Sys2Proof.Machine
end

