-- ==== Sys2Proof/Machine/RoundI.lean ====
section
/-! DEFINITION. The meanings of the I-round steps STEP48 to STEP63 (42_transform.md R141): the working registers a, b, c, d take
the step's values, and nothing else changes. -/

namespace Sys2Proof.Machine

/-- STEP48 (R141). -/
def execStep48 (s : State) : Host.Outcome State Fault Refusal := .next (s.mix fnI 48)

/-- STEP49 (R141). -/
def execStep49 (s : State) : Host.Outcome State Fault Refusal := .next (s.mix fnI 49)

/-- STEP50 (R141). -/
def execStep50 (s : State) : Host.Outcome State Fault Refusal := .next (s.mix fnI 50)

/-- STEP51 (R141). -/
def execStep51 (s : State) : Host.Outcome State Fault Refusal := .next (s.mix fnI 51)

/-- STEP52 (R141). -/
def execStep52 (s : State) : Host.Outcome State Fault Refusal := .next (s.mix fnI 52)

/-- STEP53 (R141). -/
def execStep53 (s : State) : Host.Outcome State Fault Refusal := .next (s.mix fnI 53)

/-- STEP54 (R141). -/
def execStep54 (s : State) : Host.Outcome State Fault Refusal := .next (s.mix fnI 54)

/-- STEP55 (R141). -/
def execStep55 (s : State) : Host.Outcome State Fault Refusal := .next (s.mix fnI 55)

/-- STEP56 (R141). -/
def execStep56 (s : State) : Host.Outcome State Fault Refusal := .next (s.mix fnI 56)

/-- STEP57 (R141). -/
def execStep57 (s : State) : Host.Outcome State Fault Refusal := .next (s.mix fnI 57)

/-- STEP58 (R141). -/
def execStep58 (s : State) : Host.Outcome State Fault Refusal := .next (s.mix fnI 58)

/-- STEP59 (R141). -/
def execStep59 (s : State) : Host.Outcome State Fault Refusal := .next (s.mix fnI 59)

/-- STEP60 (R141). -/
def execStep60 (s : State) : Host.Outcome State Fault Refusal := .next (s.mix fnI 60)

/-- STEP61 (R141). -/
def execStep61 (s : State) : Host.Outcome State Fault Refusal := .next (s.mix fnI 61)

/-- STEP62 (R141). -/
def execStep62 (s : State) : Host.Outcome State Fault Refusal := .next (s.mix fnI 62)

/-- STEP63 (R141). -/
def execStep63 (s : State) : Host.Outcome State Fault Refusal := .next (s.mix fnI 63)

end Sys2Proof.Machine
end

