-- ==== Sys2Proof/Machine/Bus.lean ====
section
/-! DEFINITION. The host bus: the register map (10_state.md R35), the CMD write (44_commands.md R190), the register accesses
(R195 to R198), and what the machine does next. -/

namespace Sys2Proof.Machine

/-- The byte addresses of the register map (R35). -/
def addrCmd : BitVec 5 := 0x00
def addrData : BitVec 5 := 0x04
def addrStatus : BitVec 5 := 0x08
def addrDigest0 : BitVec 5 := 0x10
def addrDigest1 : BitVec 5 := 0x14
def addrDigest2 : BitVec 5 := 0x18
def addrDigest3 : BitVec 5 := 0x1C

/-- A CMD word that decodes to ILLEGAL raises ILLEGAL_COMMAND (R222), but is ignored in phase ERROR (R225). -/
def illegalCommand (s : State) : State :=
  match s.engine.phase with
  | .error => s
  | .active => s.raise .illegalCommand
  | .done => s.raise .illegalCommand

/-- A write of Word w to CMD (R190): the command it decodes to is executed, each meaning holding the phase check. -/
def commandWrite (w : Word) (s : State) : Host.Outcome State Fault Refusal :=
  match decode (.cmd w) with
  | .ok i => exec i s
  | .error _ => .next (illegalCommand s)

/-- BusWrite(addr, v) (R52): CMD executes, DATA is set (R195), every other write is ignored (R61, R198). -/
def busWrite (addr : BitVec 5) (v : Word) (s : State) : Host.Outcome State Fault Refusal :=
  if addr = addrCmd then commandWrite v s
  else if addr = addrData then .next (s.setEngine (s.engine.setData v))
  else .next s

/-- The Word BusRead(addr) returns (R52, R196 to R198); CMD and the unmapped word 0x0C read 0 (R61). -/
def busReadValue (addr : BitVec 5) (e : Engine) : Word :=
  if addr = addrData then e.data
  else if addr = addrStatus then statusWord e
  else if addr = addrDigest0 then e.digest[0]
  else if addr = addrDigest1 then e.digest[1]
  else if addr = addrDigest2 then e.digest[2]
  else if addr = addrDigest3 then e.digest[3]
  else 0

/-- BusRead(addr): the value is returned to the host and no engine state changes (R60). -/
def busRead (addr : BitVec 5) (s : State) : State :=
  s.setReads (s.reads ++ [busReadValue addr s.engine])

/-- An access the engine serves: 32 bits wide at a word-aligned address (R58). -/
def fullAccess (width : Width) (addr : BitVec 5) : Bool :=
  decide (width = .word) && decide (addr.extractLsb' 0 2 = 0)

/-- Any other access, under SUBWORD_ACCESS_POLICY (R58, D19). -/
def subwordAccess (s : State) : Host.Outcome State Fault Refusal :=
  match s.params.subwordAccess with
  | .refuse => .refused .subwordAccess

/-- The reset input (R250): the effect of INIT on the engine, and no transform is in progress after it. It is served like
an access, never inside one (DESIGN CHOICE, assumption 5). -/
def resetInput (s : State) : State := (s.setEngine s.engine.reinit).setSeq none

/-- One host event, served whole (R59). -/
def serve (ev : HostEvent) (s : State) : Host.Outcome State Fault Refusal :=
  match ev with
  | .write width addr v => if fullAccess width addr then busWrite addr v s else subwordAccess s
  | .read width addr => if fullAccess width addr then .next (busRead addr s) else subwordAccess s
  | .reset => .next (resetInput s)

/-- STEP i of a transform in progress: the step row of index i is executed, then the sequence moves on (R28, R142). -/
def transformStep (i : Fin 64) (s : State) : Host.Outcome State Fault Refusal :=
  match exec (decodeStep (BitVec.ofNat 6 i.val)) s with
  | .next t => .next (t.sequence i)
  | .fault f => .fault f
  | .refused r => .refused r

/-- What the machine does next. A transform in progress goes on, the bus stalled (R256; DESIGN CHOICE, assumption 4); else
the oldest host event is served (R64); with none the engine is idle and holds all state (R238; DEDUCED, assumption 15). -/
def advance (s : State) : Host.Outcome State Fault Refusal :=
  match s.seq with
  | some i => transformStep i s
  | none =>
    match s.pending with
    | [] => .next s
    | ev :: rest => serve ev (s.setPending rest)

/-- The state in which a given encoded instruction is the next one: a command word is the host's next write to CMD, with
no transform in progress; a step index is the index of the transform in progress. -/
def placeNext (s : State) (e : Encoded) : State :=
  match e with
  | .cmd w => (s.setSeq none).setPending (.write .word addrCmd w :: s.pending)
  | .step i => s.setSeq (some ⟨i.toNat, i.isLt⟩)

end Sys2Proof.Machine
end

