-- ==== Sys2Proof/Machine/Step.lean ====
section
/-! DEFINITION. One step of the machine, and how the host's check places an instruction as the next one. -/

namespace Sys2Proof.Machine

/-- One step (44_commands.md R190): one host event, or one step of a transform in progress, or idling. -/
def step (s : State) : Host.Outcome State Fault Refusal := advance s

/-- s with the instruction of an opcode-table word placed so that the very next step runs it. -/
def State.withFetchWord (s : State) (nbits w : Nat) : State := placeNext s (Encoded.ofTableWord nbits w)

end Sys2Proof.Machine
end

