-- ==== Sys2Proof/Machine/HostSyntax.lean ====
section
/-! DEFINITION. The host's side: the notation of 30_encoding.md R82, the pseudo-instructions of R83, and the hexadecimal
digest of 43_engine.md R170. The engine does not see any of them; it sees the accesses they expand to. -/

namespace Sys2Proof.Machine

/-- The host-side notation (R82). -/
inductive HostLine where
  | nop
  | init
  | update (cnt : BitVec 3) (data : Word)
  | finalize
  | wr (addr : BitVec 5) (v : Word)
  | rd (addr : BitVec 5)
  deriving DecidableEq, Repr

/-- The bus accesses a line stands for (R82). -/
def HostLine.events : HostLine → List HostEvent
  | .nop => [.write .word addrCmd 0x00000000]
  | .init => [.write .word addrCmd 0x01000000]
  | .update cnt data => [.write .word addrData data, .write .word addrCmd (0x02000000 ||| cnt.setWidth 32)]
  | .finalize => [.write .word addrCmd 0x03000000]
  | .wr addr v => [.write .word addr v]
  | .rd addr => [.read .word addr]

/-- UPDATEB s (R83): one UPDATE for every four bytes, one more for one to three bytes left over, absent bytes written
as 0x00; nothing for the empty string. -/
def updateB : List Byte → List HostLine
  | b0 :: b1 :: b2 :: b3 :: rest => .update 4 (bytesWord b0 b1 b2 b3) :: updateB rest
  | [b0, b1, b2] => [.update 3 (bytesWord b0 b1 b2 0)]
  | [b0, b1] => [.update 2 (bytesWord b0 b1 0 0)]
  | [b0] => [.update 1 (bytesWord b0 0 0 0)]
  | [] => []

/-- HASH s = `INIT; UPDATEB s; FINALIZE` (R83). -/
def hashLines (s : List Byte) : List HostLine := .init :: updateB s ++ [.finalize]

/-- The accesses of a sequence of lines, in order. -/
def lineEvents (ls : List HostLine) : List HostEvent := ls.flatMap HostLine.events

/-- One lowercase hexadecimal digit (R170). -/
def hexDigit (n : BitVec 4) : Char :=
  ['0', '1', '2', '3', '4', '5', '6', '7', '8', '9', 'a', 'b', 'c', 'd', 'e', 'f'].getD n.toNat '0'

/-- The hexadecimal form of a digest (R170): two digits a byte, the more significant nibble first. -/
def hexDigest (bs : List Byte) : String :=
  String.ofList (bs.flatMap fun b => [hexDigit (b.extractLsb' 4 4), hexDigit (b.extractLsb' 0 4)])

end Sys2Proof.Machine
end

