-- ==== Sys2Proof/Safety.lean ====
section
/-! DEFINITION. What the statements speak of: the invariant of a safe run, the bytes that are pending, when two engines hold
the same message, the one-shot digest of a whole message, and the host's view of a run. -/

namespace Sys2Proof.Machine

/-- The pending bytes Buf[0:index] (10_state.md R25). -/
def Engine.pendingBytes (e : Engine) : List Byte := bufRead e.buf (fillLevel e.cnt)

/-- What every reachable engine state satisfies: the buffer's canonical form; cnt[2:0] = 0 (R24); phase = ERROR exactly
when errcode ≠ 0 (R27); of the codes only 0, 3 and 4 occur (R221, R223); DIGEST reads 0 before the first FINALIZE
(R197), and holds the DigestState after it (R194). -/
structure Engine.Inv (e : Engine) : Prop where
  buf_wf : e.buf.wf = true
  cnt_bytes : e.cnt.toNat % 8 = 0
  error_iff : e.phase = .error ↔ e.errcode ≠ 0
  code_range : e.errcode = 0 ∨ e.errcode = 3 ∨ e.errcode = 4
  digest_active : e.phase = .active → e.digest = #v[0, 0, 0, 0]
  digest_done : e.phase = .done → e.digest = #v[e.ds.a, e.ds.b, e.ds.c, e.ds.d]

/-- The invariant of a run: the engine's, and a transform is in progress only in phase ACTIVE, where alone the engine
dispatches blocks (R193, R194). -/
structure State.Inv (s : State) : Prop where
  engine : s.engine.Inv
  seq_active : s.seq ≠ none → s.engine.phase = .active

/-- Two engines that agree on everything but stale bytes: all fields but Buf, and the pending bytes (R25, R37). -/
structure Engine.SameMessage (e f : Engine) : Prop where
  ds : e.ds = f.ds
  cnt : e.cnt = f.cnt
  phase : e.phase = f.phase
  errcode : e.errcode = f.errcode
  data : e.data = f.data
  digest : e.digest = f.digest
  pending : e.pendingBytes = f.pendingBytes

/-- Two machines that differ in stale bytes only. -/
structure State.SameButStale (s t : State) : Prop where
  engine : s.engine.SameMessage t.engine
  work : s.work = t.work
  x : s.x = t.x
  seq : s.seq = t.seq
  pending : s.pending = t.pending
  reads : s.reads = t.reads
  params : s.params = t.params

/-- Two outcomes of one kind: next states that differ in stale bytes only, or one and the same stop. -/
def SameOutcome : Host.Outcome State Fault Refusal → Host.Outcome State Fault Refusal → Prop
  | .next s, .next t => s.SameButStale t
  | .fault f, .fault g => f = g
  | .refused r, .refused q => r = q
  | _, _ => False

/-- BlockTransform on a block that has 64 bytes, as a total function of its bytes. -/
def compressBlock (q : Quad) (block : List Byte) : Quad := compress q (messageWords (groupWords block))

/-- The first n blocks of 64 bytes of a byte sequence, compressed in order from q. -/
def compressBlocks (n : Nat) (q : Quad) (bs : List Byte) : Quad :=
  match n with
  | 0 => q
  | n + 1 => compressBlocks n (compressBlock q (bs.take 64)) (bs.drop 64)

/-- The padded message: m, the padding of its length, and its bit length mod 2^64, little-endian (R166, R168). -/
def paddedMessage (m : List Byte) : List Byte :=
  m ++ (0x80 :: List.replicate (padLen (m.length % 64) - 1) 0x00) ++ lengthField (BitVec.ofNat 64 (8 * m.length))

/-- The DigestState after a whole message at once: its padded blocks compressed in order from the initial state. -/
def oneShot (m : List Byte) : Quad :=
  compressBlocks ((paddedMessage m).length / 64) initialDigestState (paddedMessage m)

/-- The engine has absorbed exactly m since its last initialisation: the counter holds m's bit length mod 2^64 (R23), the
DigestState the compression of m's full blocks, and the buffer the bytes after them (R164). -/
structure Engine.Holds (e : Engine) (m : List Byte) : Prop where
  cnt : e.cnt = BitVec.ofNat 64 (8 * m.length)
  ds : e.ds = compressBlocks (m.length / 64) initialDigestState m
  pending : e.pendingBytes = m.drop (64 * (m.length / 64))

/-- The engine's lifecycle as a host thinks of it, with the message in full (R199, R262). -/
inductive Session where
  | absorbing (m : List Byte)
  | finished (m : List Byte)
  | failed (k : ErrorKind)
  deriving DecidableEq, Repr

/-- What one command word does to a session, DATA standing at `data` (44_commands.md R190 to R194). -/
def Session.command (data : Word) (w : Word) (g : Session) : Session :=
  if w = 0x01000000 then .absorbing []
  else
    match g with
    | .failed k => .failed k
    | .absorbing m =>
      if w = 0x00000000 then .absorbing m
      else if w = 0x03000000 then .finished m
      else if 0x02000000 ≤ w ∧ w ≤ 0x02000004 then
        .absorbing (m ++ (wordBytes data).take (w.toNat - 0x02000000))
      else .failed .illegalCommand
    | .finished m =>
      if w = 0x00000000 then .finished m
      else if w = 0x03000000 ∨ (0x02000000 ≤ w ∧ w ≤ 0x02000004) then .failed .useAfterFinalize
      else .failed .illegalCommand

/-- What one host event does to a session: reset starts a message, a write to CMD is a command, and nothing else
touches the message (R262). -/
def Session.event (data : Word) (ev : HostEvent) (g : Session) : Session :=
  match ev with
  | .reset => .absorbing []
  | .write _ addr w => if addr = addrCmd then g.command data w else g
  | .read _ _ => g

/-- The engine shows a session: it holds the message absorbed so far, or the digest of the finished message, or the code
of the first error (R194, R221, R225). -/
def Engine.Shows (e : Engine) : Session → Prop
  | .absorbing m => e.phase = .active ∧ e.errcode = 0 ∧ e.Holds m
  | .finished m =>
    e.phase = .done ∧ e.errcode = 0 ∧
      e.digest = #v[(oneShot m).a, (oneShot m).b, (oneShot m).c, (oneShot m).d]
  | .failed k => e.phase = .error ∧ e.errcode = k.code

/-- Go on with a next state, or stop as the outcome stops. -/
def andThen (o : Host.Outcome State Fault Refusal) (f : State → Host.Outcome State Fault Refusal) :
    Host.Outcome State Fault Refusal :=
  match o with
  | .next s => f s
  | .fault r => .fault r
  | .refused r => .refused r

/-- n steps of the machine, ending at the first stop. -/
def stepMany (n : Nat) (s : State) : Host.Outcome State Fault Refusal :=
  match n with
  | 0 => .next s
  | n + 1 => andThen (step s) (stepMany n)

/-- The left fold of the per-access rules over a sequence of host events (20_memory.md R64). -/
def serveAll (evs : List HostEvent) (s : State) : Host.Outcome State Fault Refusal :=
  match evs with
  | [] => .next s
  | ev :: rest => andThen (serve ev s) (serveAll rest)

/-- The host event the next step serves. -/
def State.NextIs (s : State) (ev : HostEvent) : Prop := s.seq = none ∧ s.pending.head? = some ev

/-- The next step serves a 32-bit write of w to CMD. -/
def State.NextCommand (s : State) (w : Word) : Prop := s.NextIs (.write .word addrCmd w)

/-- The next step reinitialises the engine: INIT in any phase, or the reset input (60_exceptions.md R229). -/
def State.NextReinit (s : State) : Prop := s.NextCommand 0x01000000 ∨ s.NextIs .reset

/-- The next step serves an UPDATE of 0 to 4 bytes. -/
def State.NextUpdate (s : State) : Prop :=
  ∃ cnt : BitVec 3, cnt.toNat ≤ 4 ∧ s.NextCommand (0x02000000 + cnt.setWidth 32)

/-- A sequence of instructions executed one after the other. -/
def execAll (is : List Instr) (s : State) : Host.Outcome State Fault Refusal :=
  match is with
  | [] => .next s
  | i :: rest => andThen (exec i s) (execAll rest)

end Sys2Proof.Machine
end

