-- ==== Sys2Proof/Certificates/Slice0/Obligations.lean ====
section
/-! DEFINITION. The statements about the machine, from the numbered rules of spec/. -/

namespace Sys2Proof.Spec

open Sys2Proof

/-- One row of the step table of 30_encoding.md R81: the instruction, its 6-bit index, k, s and T. -/
structure StepRow where
  instr : Instr
  index : BitVec 6
  k : Fin 16
  n : Nat
  t : Word

/-- The rows of steps 0 to 15 of the table of 30_encoding.md R81, the F round. -/
def tableF : List StepRow :=
  [⟨.step0, 0, 0, 7, 0xD76AA478⟩, ⟨.step1, 1, 1, 12, 0xE8C7B756⟩,
   ⟨.step2, 2, 2, 17, 0x242070DB⟩, ⟨.step3, 3, 3, 22, 0xC1BDCEEE⟩,
   ⟨.step4, 4, 4, 7, 0xF57C0FAF⟩, ⟨.step5, 5, 5, 12, 0x4787C62A⟩,
   ⟨.step6, 6, 6, 17, 0xA8304613⟩, ⟨.step7, 7, 7, 22, 0xFD469501⟩,
   ⟨.step8, 8, 8, 7, 0x698098D8⟩, ⟨.step9, 9, 9, 12, 0x8B44F7AF⟩,
   ⟨.step10, 10, 10, 17, 0xFFFF5BB1⟩, ⟨.step11, 11, 11, 22, 0x895CD7BE⟩,
   ⟨.step12, 12, 12, 7, 0x6B901122⟩, ⟨.step13, 13, 13, 12, 0xFD987193⟩,
   ⟨.step14, 14, 14, 17, 0xA679438E⟩, ⟨.step15, 15, 15, 22, 0x49B40821⟩]

/-- The rows of steps 16 to 31 of the table of 30_encoding.md R81, the G round. -/
def tableG : List StepRow :=
  [⟨.step16, 16, 1, 5, 0xF61E2562⟩, ⟨.step17, 17, 6, 9, 0xC040B340⟩,
   ⟨.step18, 18, 11, 14, 0x265E5A51⟩, ⟨.step19, 19, 0, 20, 0xE9B6C7AA⟩,
   ⟨.step20, 20, 5, 5, 0xD62F105D⟩, ⟨.step21, 21, 10, 9, 0x02441453⟩,
   ⟨.step22, 22, 15, 14, 0xD8A1E681⟩, ⟨.step23, 23, 4, 20, 0xE7D3FBC8⟩,
   ⟨.step24, 24, 9, 5, 0x21E1CDE6⟩, ⟨.step25, 25, 14, 9, 0xC33707D6⟩,
   ⟨.step26, 26, 3, 14, 0xF4D50D87⟩, ⟨.step27, 27, 8, 20, 0x455A14ED⟩,
   ⟨.step28, 28, 13, 5, 0xA9E3E905⟩, ⟨.step29, 29, 2, 9, 0xFCEFA3F8⟩,
   ⟨.step30, 30, 7, 14, 0x676F02D9⟩, ⟨.step31, 31, 12, 20, 0x8D2A4C8A⟩]

/-- The rows of steps 32 to 47 of the table of 30_encoding.md R81, the H round. -/
def tableH : List StepRow :=
  [⟨.step32, 32, 5, 4, 0xFFFA3942⟩, ⟨.step33, 33, 8, 11, 0x8771F681⟩,
   ⟨.step34, 34, 11, 16, 0x6D9D6122⟩, ⟨.step35, 35, 14, 23, 0xFDE5380C⟩,
   ⟨.step36, 36, 1, 4, 0xA4BEEA44⟩, ⟨.step37, 37, 4, 11, 0x4BDECFA9⟩,
   ⟨.step38, 38, 7, 16, 0xF6BB4B60⟩, ⟨.step39, 39, 10, 23, 0xBEBFBC70⟩,
   ⟨.step40, 40, 13, 4, 0x289B7EC6⟩, ⟨.step41, 41, 0, 11, 0xEAA127FA⟩,
   ⟨.step42, 42, 3, 16, 0xD4EF3085⟩, ⟨.step43, 43, 6, 23, 0x04881D05⟩,
   ⟨.step44, 44, 9, 4, 0xD9D4D039⟩, ⟨.step45, 45, 12, 11, 0xE6DB99E5⟩,
   ⟨.step46, 46, 15, 16, 0x1FA27CF8⟩, ⟨.step47, 47, 2, 23, 0xC4AC5665⟩]

/-- The rows of steps 48 to 63 of the table of 30_encoding.md R81, the I round. -/
def tableI : List StepRow :=
  [⟨.step48, 48, 0, 6, 0xF4292244⟩, ⟨.step49, 49, 7, 10, 0x432AFF97⟩,
   ⟨.step50, 50, 14, 15, 0xAB9423A7⟩, ⟨.step51, 51, 5, 21, 0xFC93A039⟩,
   ⟨.step52, 52, 12, 6, 0x655B59C3⟩, ⟨.step53, 53, 3, 10, 0x8F0CCC92⟩,
   ⟨.step54, 54, 10, 15, 0xFFEFF47D⟩, ⟨.step55, 55, 1, 21, 0x85845DD1⟩,
   ⟨.step56, 56, 8, 6, 0x6FA87E4F⟩, ⟨.step57, 57, 15, 10, 0xFE2CE6E0⟩,
   ⟨.step58, 58, 6, 15, 0xA3014314⟩, ⟨.step59, 59, 13, 21, 0x4E0811A1⟩,
   ⟨.step60, 60, 4, 6, 0xF7537E82⟩, ⟨.step61, 61, 11, 10, 0xBD3AF235⟩,
   ⟨.step62, 62, 2, 15, 0x2AD7D2BB⟩, ⟨.step63, 63, 9, 21, 0xEB86D391⟩]

end Sys2Proof.Spec

open Sys2Proof Sys2Proof.Machine

/-! ### Reset and the commands -/

/-- 10_state.md R37, R22 and 70_reset_and_hazards.md R251: what reset leaves in every field of EngineState, with the fill
level and the STATUS word derived from it, and that INIT leaves the same values in every field but Buf. Buf holds
BUFFER_RESET_CONTENTS after reset, whatever they are. -/
def Obligations.ResetLeavesTheSpecsValues : Prop :=
  State.reset.engine.ds = ⟨0x67452301, 0xEFCDAB89, 0x98BADCFE, 0x10325476⟩ ∧
    State.reset.engine.cnt = 0 ∧ fillLevel State.reset.engine.cnt = 0 ∧
    (∀ j, j < 64 → State.reset.engine.buf.byteAt j = Config.bufferResetContents j) ∧
    State.reset.engine.phase = .active ∧ State.reset.engine.errcode = 0 ∧ State.reset.engine.data = 0 ∧
    State.reset.engine.digest = #v[0, 0, 0, 0] ∧ statusWord State.reset.engine = 0 ∧
    ∀ s : State, ∃ t : State, exec .init s = .next t ∧
      t.engine = { State.reset.engine with buf := s.engine.buf }

/-- 44_commands.md R191: NOP changes no state, in any phase; the all-zero word alone is NOP, and a word of OPC 0 with any
RSV or CNT bit set is illegal. -/
def Obligations.NopChangesNothing : Prop :=
  (∀ s : State, exec .nop s = .next s) ∧
    ∀ w : Word, (decode (.cmd w) = .ok .nop ↔ w = 0x00000000) ∧
      (w.toNat / 2 ^ 24 = 0 → w ≠ 0x00000000 → ∃ r : DecodeReject, decode (.cmd w) = .error r)

/-- 44_commands.md R192: INIT, in every phase, writes every field of EngineState but Buf, and nothing else. That the
registers of a stepped transform stay is the model's choice (assumption 13). -/
def Obligations.InitReinitialisesTheEngine : Prop :=
  ∀ s : State, exec .init s = .next
    { s with
      engine :=
        { ds := ⟨0x67452301, 0xEFCDAB89, 0x98BADCFE, 0x10325476⟩
          cnt := 0
          buf := s.engine.buf
          phase := .active
          errcode := 0
          data := 0
          digest := #v[0, 0, 0, 0] } }

/-- 70_reset_and_hazards.md R250: the reset input has the effect of INIT; Buf is not written. That a reset is served
between commands, and leaves the stepped registers, is the model's choice (assumptions 5 and 13). -/
def Obligations.ResetInputHasTheEffectOfInit : Prop :=
  ∀ (s : State) (rest : List HostEvent), s.seq = none → s.pending = .reset :: rest →
    step s = exec .init (s.setPending rest) ∧
      step s = .next
        { s with
          pending := rest
          engine :=
            { ds := ⟨0x67452301, 0xEFCDAB89, 0x98BADCFE, 0x10325476⟩
              cnt := 0
              buf := s.engine.buf
              phase := .active
              errcode := 0
              data := 0
              digest := #v[0, 0, 0, 0] } }

/-- 44_commands.md R193 with 43_engine.md R160 to R164: UPDATE in phase ACTIVE completes (for a message that stays below
2^64 bits, or under the policy wrap). It absorbs the first CNT lanes of DATA, lane m being DATA[8m+7:8m]: the counter
advances by 8·CNT; the bytes are appended to the pending ones, or, when they complete 64, that block is compressed into
the DigestState and the bytes after it are pending. -/
def Obligations.UpdateAbsorbsTheLanesOfData : Prop :=
  ∀ (s : State) (cnt : BitVec 3), s.engine.phase = .active → cnt.toNat ≤ 4 →
    (s.engine.cnt.toNat + 8 * cnt.toNat < 2 ^ 64 ∨ s.params.lengthOverflow = .wrap) →
    let bytes := (List.range cnt.toNat).map fun m => s.engine.data.extractLsb' (8 * m) 8
    let fed := s.engine.pendingBytes ++ bytes
    ∃ t : State, exec (.update cnt) s = .next t ∧
      t.engine.cnt = s.engine.cnt + BitVec.ofNat 64 (8 * cnt.toNat) ∧
      (fed.length < 64 → t.engine.ds = s.engine.ds ∧ t.engine.pendingBytes = fed) ∧
      (64 ≤ fed.length →
        blockTransform s.engine.ds (fed.take 64) = .ok t.engine.ds ∧ t.engine.pendingBytes = fed.drop 64)

/-- The frame of UPDATE (44_commands.md R193, 43_engine.md R162, R164): in every phase, with every CNT, when it answers a
next state, DATA, DIGEST, the stepped transform's registers (the model's choice, assumption 13) and the host's side are
as before; the phase and the error code change only by an error; and every byte of the buffer reads as before but those at the offsets
(index + m) mod 64, m < CNT, index being the fill level before the command. -/
def Obligations.UpdateStoresOnlyItsBytes : Prop :=
  ∀ (s t : State) (cnt : BitVec 3), exec (.update cnt) s = .next t →
    t = { s with
          engine :=
            { s.engine with
              ds := t.engine.ds
              cnt := t.engine.cnt
              buf := t.engine.buf
              phase := t.engine.phase
              errcode := t.engine.errcode } } ∧
      (s.engine.phase = .active → cnt.toNat ≤ 4 →
        t.engine.phase = s.engine.phase ∧ t.engine.errcode = s.engine.errcode) ∧
      (s.engine.phase ≠ .active ∨ 4 < cnt.toNat →
        t.engine.ds = s.engine.ds ∧ t.engine.cnt = s.engine.cnt ∧ t.engine.buf = s.engine.buf) ∧
      ∀ j : Nat, (∀ m, m < cnt.toNat → j ≠ (fillLevel s.engine.cnt + m) % 64) →
        t.engine.buf.byteAt j = s.engine.buf.byteAt j

/-- 43_engine.md R165: an update with no bytes changes no field, and so UPDATE with CNT 0 changes nothing in phase
ACTIVE. -/
def Obligations.EmptyUpdateIsANoOp : Prop :=
  (∀ e : Engine, update e [] = .ok e) ∧
    ∀ s : State, s.engine.phase = .active → exec (.update 0) s = .next s

/-- 44_commands.md R194 with 43_engine.md R168 and R172: FINALIZE in phase ACTIVE completes and enters DONE, with the
DigestState in DIGEST. The pending bytes, 0x80, zeros and the eight bytes of the counter before padding, least
significant first, make one block below fill level 56 and two blocks from 56 on. -/
def Obligations.FinalizePadsAndPublishesTheDigest : Prop :=
  ∀ s : State, s.engine.phase = .active →
    let index := fillLevel s.engine.cnt
    let bits := (List.range 8).map fun m => s.engine.cnt.extractLsb' (8 * m) 8
    ∃ t : State, exec .finalize s = .next t ∧ t.engine.phase = .done ∧
      t.engine.digest = #v[t.engine.ds.a, t.engine.ds.b, t.engine.ds.c, t.engine.ds.d] ∧
      (index < 56 →
        blockTransform s.engine.ds
          (s.engine.pendingBytes ++ 0x80 :: List.replicate (55 - index) 0x00 ++ bits) = .ok t.engine.ds) ∧
      (56 ≤ index → ∃ q : Quad,
        blockTransform s.engine.ds (s.engine.pendingBytes ++ 0x80 :: List.replicate (63 - index) 0x00) = .ok q ∧
        blockTransform q (List.replicate 56 0x00 ++ bits) = .ok t.engine.ds)

/-- The frame of FINALIZE (44_commands.md R194, 43_engine.md R168): in every phase, when it answers a next state, DATA, the
stepped transform's registers (the model's choice, assumption 13) and the host's side are as before; in phase ACTIVE the error code is as before, the counter
advances by 8·(padLen + 8), and every byte of the buffer reads as before but those at the offsets
(index + m) mod 64, m < padLen + 8; in the other phases nothing of the message changes. -/
def Obligations.FinalizeStoresOnlyItsTrailer : Prop :=
  ∀ s t : State, exec .finalize s = .next t →
    t = { s with
          engine :=
            { s.engine with
              ds := t.engine.ds
              cnt := t.engine.cnt
              buf := t.engine.buf
              phase := t.engine.phase
              errcode := t.engine.errcode
              digest := t.engine.digest } } ∧
      (s.engine.phase = .active →
        t.engine.errcode = s.engine.errcode ∧
          t.engine.cnt = s.engine.cnt + BitVec.ofNat 64 (8 * (padLen (fillLevel s.engine.cnt) + 8))) ∧
      (s.engine.phase ≠ .active →
        t.engine.ds = s.engine.ds ∧ t.engine.cnt = s.engine.cnt ∧ t.engine.buf = s.engine.buf ∧
          t.engine.digest = s.engine.digest) ∧
      ∀ j : Nat,
        (∀ m, m < padLen (fillLevel s.engine.cnt) + 8 → j ≠ (fillLevel s.engine.cnt + m) % 64) →
          t.engine.buf.byteAt j = s.engine.buf.byteAt j

/-- 43_engine.md R161 and U1 under the two values of LENGTH_OVERFLOW_POLICY: an UPDATE in phase ACTIVE that takes the bit
count to 2^64 or beyond is refused under refuse, and under wrap completes with the counter reduced mod 2^64. -/
def Obligations.LengthOverflowFollowsThePolicy : Prop :=
  ∀ (s : State) (cnt : BitVec 3), s.engine.phase = .active → cnt.toNat ≤ 4 →
    2 ^ 64 ≤ s.engine.cnt.toNat + 8 * cnt.toNat →
    (s.params.lengthOverflow = .refuse → exec (.update cnt) s = .refused .lengthOverflow) ∧
      (s.params.lengthOverflow = .wrap → ∃ t : State, exec (.update cnt) s = .next t ∧
        t.engine.cnt.toNat = s.engine.cnt.toNat + 8 * cnt.toNat - 2 ^ 64)

/-! ### Errors -/

/-- 60_exceptions.md R227 with R224: in phase DONE, UPDATE with any legal CNT, 0 among them, and FINALIZE enter the error
state with code 3; no other state changes, DIGEST among it, and STATUS then reads 0x00000034. -/
def Obligations.UseAfterFinalizeIsRaisedInDone : Prop :=
  ∀ s : State, s.engine.phase = .done →
    let t : State := { s with engine := { s.engine with errcode := 3, phase := .error } }
    exec .finalize s = .next t ∧
      (∀ cnt : BitVec 3, cnt.toNat ≤ 4 → exec (.update cnt) s = .next t) ∧
      statusWord t.engine = 0x00000034

/-- 60_exceptions.md R222, R224 and R226: a CMD write of an illegal word (RSV not 0, OPC above 3, CNT above 4 with UPDATE, or
CNT not 0 with another OPC) enters the error state with code 4 in ACTIVE and in DONE, and changes nothing else; in phase
ERROR it is ignored. -/
def Obligations.IllegalWordRaisesIllegalCommand : Prop :=
  ∀ (s : State) (w : Word) (rest : List HostEvent), s.seq = none → s.pending = .write .word 0x00 w :: rest →
    let opc := w.toNat / 2 ^ 24
    let rsv := w.toNat / 2 ^ 3 % 2 ^ 21
    let cnt := w.toNat % 2 ^ 3
    (rsv ≠ 0 ∨ 3 < opc ∨ (opc = 2 ∧ 4 < cnt) ∨ (opc ≠ 2 ∧ cnt ≠ 0)) →
    (s.engine.phase ≠ .error → step s = .next
      { s with pending := rest, engine := { s.engine with errcode := 4, phase := .error } }) ∧
      (s.engine.phase = .error → step s = .next { s with pending := rest })

/-- 60_exceptions.md R225: in phase ERROR a CMD write of any word but 0x01000000 changes nothing. -/
def Obligations.ErrorPhaseIgnoresEveryCommandButInit : Prop :=
  ∀ (s : State) (w : Word) (rest : List HostEvent), s.seq = none → s.pending = .write .word 0x00 w :: rest →
    s.engine.phase = .error → w ≠ 0x01000000 → step s = .next { s with pending := rest }

/-- 60_exceptions.md R229: from phase ERROR a step leads to another phase exactly when it is INIT or reset, and then it
clears errcode, sets ACTIVE and reinitialises the message state. -/
def Obligations.OnlyInitOrResetLeavesTheErrorPhase : Prop :=
  ∀ s t : State, step s = .next t → s.engine.phase = .error →
    (t.engine.phase ≠ .error ↔ s.NextReinit) ∧
      (s.NextReinit → t.engine.phase = .active ∧ t.engine.errcode = 0 ∧ t.engine.cnt = 0 ∧
        t.engine.ds = ⟨0x67452301, 0xEFCDAB89, 0x98BADCFE, 0x10325476⟩)

/-- 60_exceptions.md R223 and 20_memory.md R51: from every state, a step ends in no fault, and records neither of the
internal error codes 1 and 2. -/
def Obligations.InternalFaultsAreUnreachable : Prop :=
  ∀ s : State, (∀ f : Fault, step s ≠ .fault f) ∧
    ∀ t : State, step s = .next t → t.engine.errcode = 1 ∨ t.engine.errcode = 2 →
      t.engine.errcode = s.engine.errcode

/-- 44_commands.md R190 (the step is total): a step answers a next state unless the host event it serves is a byte,
halfword or misaligned access, or an UPDATE past 2^64 bits under the policy refuse; then it is refused by name. -/
def Obligations.OnlyAPolicyRefusesAStep : Prop :=
  ∀ s : State, (∃ t : State, step s = .next t) ∨
    (step s = .refused .subwordAccess ∧
      ∃ (width : Width) (addr : BitVec 5), (width ≠ .word ∨ addr.toNat % 4 ≠ 0) ∧
        (s.NextIs (.read width addr) ∨ ∃ v : Word, s.NextIs (.write width addr v))) ∨
    (step s = .refused .lengthOverflow ∧ s.NextUpdate ∧ s.engine.phase = .active ∧
      s.params.lengthOverflow = .refuse ∧ 2 ^ 64 ≤ s.engine.cnt.toNat + 32)

/-! ### The encoded forms -/

/-- Words written out bit by bit from 30_encoding.md R71 to R73 and R79 decode to the instructions they stand for. -/
def Obligations.WordsOfTheSpecDecode : Prop :=
  decode (.cmd 0b00000000000000000000000000000000#32) = .ok .nop ∧
    decode (.cmd 0b00000001000000000000000000000000#32) = .ok .init ∧
    decode (.cmd 0b00000010000000000000000000000011#32) = .ok (.update 3) ∧
    decode (.cmd 0b00000011000000000000000000000000#32) = .ok .finalize ∧
    decode (.step 0b001111#6) = .ok .step15 ∧
    decode (.step 0b010001#6) = .ok .step17 ∧
    decode (.step 0b100001#6) = .ok .step33 ∧
    decode (.step 0b111111#6) = .ok .step63

/-- 30_encoding.md R78: a command word decodes to an instruction exactly by its row's match and mask, UPDATE with CNT ≤ 4;
the legal words are exactly 0x00000000, 0x01000000, 0x02000000 to 0x02000004 and 0x03000000. -/
def Obligations.LegalWordsFollowMatchAndMask : Prop :=
  (∀ (w : Word) (i : Instr), decode (.cmd w) = .ok i ↔
    (w &&& 0xFFFFFFFF = 0x00000000 ∧ i = .nop) ∨
      (w &&& 0xFFFFFFFF = 0x01000000 ∧ i = .init) ∨
      (w &&& 0xFFFFFFF8 = 0x02000000 ∧ w.toNat % 8 ≤ 4 ∧ i = .update (BitVec.ofNat 3 (w.toNat % 8))) ∨
      (w &&& 0xFFFFFFFF = 0x03000000 ∧ i = .finalize)) ∧
    ∀ w : Word, (∃ i : Instr, decode (.cmd w) = .ok i) ↔
      w.toNat ∈ [0x00000000, 0x01000000, 0x02000000, 0x02000001, 0x02000002, 0x02000003, 0x02000004, 0x03000000]

/-- 30_encoding.md R71 to R79: decoding the bytes of an encoded well-formed instruction, whatever bytes follow, gives the
instruction back and leaves those bytes; every operand at every legal value. -/
def Obligations.DecodeOfEncodeIsTheInstruction : Prop :=
  ∀ (i : Instr) (rest : List Byte), i.wellFormed = true →
    decodeBytes (encode i).form ((encode i).bytes ++ rest) = .ok (i, rest)

/-- 30_encoding.md R71 to R79, the other direction: bytes that decode are the encoding of a well-formed instruction. -/
def Obligations.EncodeOfDecodeIsTheBytes : Prop :=
  ∀ (form : Form) (bs rest : List Byte) (i : Instr), decodeBytes form bs = .ok (i, rest) →
    i.wellFormed = true ∧ (encode i).form = form ∧ bs = (encode i).bytes ++ rest

/-- 30_encoding.md R80: k(i) by its formula in each round; the step's index within its round gives the same k; and within
each round every message word is used. -/
def Obligations.MessageIndexFollowsItsFormula : Prop :=
  ∀ i : Fin 64,
    let j := i.val % 16
    (i.val / 16 = 0 → (msgIndex i).val = i.val % 16 ∧ (msgIndex i).val = j % 16) ∧
      (i.val / 16 = 1 → (msgIndex i).val = (1 + 5 * i.val) % 16 ∧ (msgIndex i).val = (1 + 5 * j) % 16) ∧
      (i.val / 16 = 2 → (msgIndex i).val = (5 + 3 * i.val) % 16 ∧ (msgIndex i).val = (5 + 3 * j) % 16) ∧
      (i.val / 16 = 3 → (msgIndex i).val = (7 * i.val) % 16 ∧ (msgIndex i).val = (7 * j) % 16) ∧
      ∀ k : Fin 16, ∃ i' : Fin 64, i'.val / 16 = i.val / 16 ∧ msgIndex i' = k

/-! ### The datapath and the transform -/

/-- 40_word.md R100 to R107: the Word operations as arithmetic on unsigned values and on bits; rotl is refused outside
0 ≤ n < 32 (D12). -/
def Obligations.WordOperationsAreUnsignedArithmetic : Prop :=
  ∀ (x y : Word) (n : Nat),
    (wAdd x y).toNat = (x.toNat + y.toNat) % 2 ^ 32 ∧
      (∀ m, (wAnd x y).getLsbD m = (x.getLsbD m && y.getLsbD m)) ∧
      (∀ m, (wOr x y).getLsbD m = (x.getLsbD m || y.getLsbD m)) ∧
      (∀ m, (wXor x y).getLsbD m = (x.getLsbD m ^^ y.getLsbD m)) ∧
      (wNot x).toNat = 0xFFFFFFFF - x.toNat ∧
      (wShl x n).toNat = x.toNat * 2 ^ n % 2 ^ 32 ∧
      (wLshr x n).toNat = x.toNat / 2 ^ n ∧
      (n < 32 → ∃ r : Word, rotlNat x n = some r ∧ ∀ m, m < 32 → r.getLsbD ((m + n) % 32) = x.getLsbD m) ∧
      (32 ≤ n → rotlNat x n = none)

/-- 42_transform.md R130 to R133, bit by bit: F chooses y or z by x, G chooses x or y by z, H is the parity, and I is
y xor (x or not z). -/
def Obligations.NonlinearFunctionsBitByBit : Prop :=
  ∀ (x y z : Word) (n : Nat), n < 32 →
    (fnF x y z).getLsbD n = (if x.getLsbD n then y.getLsbD n else z.getLsbD n) ∧
      (fnG x y z).getLsbD n = (if z.getLsbD n then x.getLsbD n else y.getLsbD n) ∧
      (fnH x y z).getLsbD n = ((x.getLsbD n ^^ y.getLsbD n) ^^ z.getLsbD n) ∧
      (fnI x y z).getLsbD n = (y.getLsbD n ^^ (x.getLsbD n || !z.getLsbD n))

/-- 42_transform.md R138 with the rows of R81: each F-round step, decoded from its 6-bit index, answers a next state in
which a, b, c, d are `(d, tmp, b, c)` and everything else, the DigestState and the message words among it, is as before.
State holds the transform's a, b, c, d and x as R30's cycle-level view does (assumption 1). -/
def Obligations.FRoundStepsMixTheWorkingRegisters : Prop :=
  ∀ row ∈ Sys2Proof.Spec.tableF, ∀ s : State,
    decode (.step row.index) = .ok row.instr ∧
      exec row.instr s = .next
        { s with
          work :=
            { a := s.work.d
              b := (s.work.a + ((s.work.b &&& s.work.c) ||| (~~~s.work.b &&& s.work.d)) + s.x[row.k] + row.t).rotateLeft row.n
                + s.work.b
              c := s.work.b
              d := s.work.c } }

/-- 42_transform.md R139 with the rows of R81: each G-round step, decoded from its 6-bit index, answers a next state in
which a, b, c, d are `(d, tmp, b, c)` and everything else, the DigestState and the message words among it, is as before.
State holds the transform's a, b, c, d and x as R30's cycle-level view does (assumption 1). -/
def Obligations.GRoundStepsMixTheWorkingRegisters : Prop :=
  ∀ row ∈ Sys2Proof.Spec.tableG, ∀ s : State,
    decode (.step row.index) = .ok row.instr ∧
      exec row.instr s = .next
        { s with
          work :=
            { a := s.work.d
              b := (s.work.a + ((s.work.b &&& s.work.d) ||| (s.work.c &&& ~~~s.work.d)) + s.x[row.k] + row.t).rotateLeft row.n
                + s.work.b
              c := s.work.b
              d := s.work.c } }

/-- 42_transform.md R140 with the rows of R81: each H-round step, decoded from its 6-bit index, answers a next state in
which a, b, c, d are `(d, tmp, b, c)` and everything else, the DigestState and the message words among it, is as before.
State holds the transform's a, b, c, d and x as R30's cycle-level view does (assumption 1). -/
def Obligations.HRoundStepsMixTheWorkingRegisters : Prop :=
  ∀ row ∈ Sys2Proof.Spec.tableH, ∀ s : State,
    decode (.step row.index) = .ok row.instr ∧
      exec row.instr s = .next
        { s with
          work :=
            { a := s.work.d
              b := (s.work.a + (s.work.b ^^^ s.work.c ^^^ s.work.d) + s.x[row.k] + row.t).rotateLeft row.n
                + s.work.b
              c := s.work.b
              d := s.work.c } }

/-- 42_transform.md R141 with the rows of R81: each I-round step, decoded from its 6-bit index, answers a next state in
which a, b, c, d are `(d, tmp, b, c)` and everything else, the DigestState and the message words among it, is as before.
State holds the transform's a, b, c, d and x as R30's cycle-level view does (assumption 1). -/
def Obligations.IRoundStepsMixTheWorkingRegisters : Prop :=
  ∀ row ∈ Sys2Proof.Spec.tableI, ∀ s : State,
    decode (.step row.index) = .ok row.instr ∧
      exec row.instr s = .next
        { s with
          work :=
            { a := s.work.d
              b := (s.work.a + (s.work.c ^^^ (s.work.b ||| ~~~s.work.d)) + s.x[row.k] + row.t).rotateLeft row.n
                + s.work.b
              c := s.work.b
              d := s.work.c } }

/-- 42_transform.md R142 and R144: BlockTransform on a block of 64 bytes is the 64 STEP instructions executed in index order
on the working registers, loaded from the DigestState, followed by one addition of the result onto the input state. The
64 instructions change the working registers alone. State holds those registers by the model's choice (assumption 1). -/
def Obligations.BlockTransformIsTheSixtyFourSteps : Prop :=
  ∀ (s : State) (block : List Byte), block.length = 64 →
    ∃ t0 t : State, s.beginTransform block = .ok t0 ∧ t0.work = s.engine.ds ∧
      execAll ((List.range 64).map fun i => decodeStep (BitVec.ofNat 6 i)) t0 = .next t ∧
      t = { t0 with work := t.work } ∧
      blockTransform s.engine.ds block = .ok
        { a := s.engine.ds.a + t.work.a
          b := s.engine.ds.b + t.work.b
          c := s.engine.ds.c + t.work.c
          d := s.engine.ds.d + t.work.d }

/-- 70_reset_and_hazards.md R260 and 10_state.md R28: a transform taken one machine step at a time ends after 64 steps, with
the DigestState that BlockTransform gives and no transform in progress; the host's accesses wait, and the rest of the
engine is as before. That a machine step runs one STEP is the model's choice (assumption 1), and so is that the bus
stalls meanwhile, among R256's two (assumption 4). -/
def Obligations.SixtyFourMachineStepsCompleteATransform : Prop :=
  ∀ (s t0 : State) (block : List Byte), s.beginTransform block = .ok t0 →
    ∃ t : State, stepMany 64 t0 = .next t ∧
      blockTransform s.engine.ds block = .ok t.engine.ds ∧
      t = { t0 with seq := none, work := t.work, engine := { s.engine with ds := t.engine.ds } }

/-- 42_transform.md R143: BlockTransform raises InvalidBlockLength exactly when the block does not have 64 bytes. -/
def Obligations.BlockTransformRaisesOnAnotherLength : Prop :=
  ∀ (q : Quad) (block : List Byte),
    (block.length ≠ 64 → blockTransform q block = .error (.raised .invalidBlockLength)) ∧
      (block.length = 64 → ∃ r : Quad, blockTransform q block = .ok r)

/-- 41_codec.md R123. -/
def Obligations.DecodeOfEncodedWordsIsTheWords : Prop :=
  ∀ ws : List Word, decodeWords (encodeWords ws) = .ok ws

/-- 41_codec.md R124. -/
def Obligations.EncodeOfDecodedBytesIsTheBytes : Prop :=
  ∀ bs : List Byte, bs.length % 4 = 0 → ∃ ws : List Word, decodeWords bs = .ok ws ∧ encodeWords ws = bs

/-- 41_codec.md R121 and R122: decode reads Word j as the little-endian number of bytes 4j to 4j+3, and raises
InvalidCodecLength when the length is no multiple of 4. -/
def Obligations.DecodedWordsAreLittleEndian : Prop :=
  ∀ bs : List Byte,
    (bs.length % 4 ≠ 0 → decodeWords bs = .error (.raised .invalidCodecLength)) ∧
      (bs.length % 4 = 0 → ∃ ws : List Word, decodeWords bs = .ok ws ∧ ws.length = bs.length / 4 ∧
        ∀ j, j < ws.length → (ws.getD j 0).toNat =
          (bs.getD (4 * j) 0).toNat + 2 ^ 8 * (bs.getD (4 * j + 1) 0).toNat +
            2 ^ 16 * (bs.getD (4 * j + 2) 0).toNat + 2 ^ 24 * (bs.getD (4 * j + 3) 0).toNat)

/-- 20_memory.md R55: the digest is 16 bytes, byte 4j + m being lane m of the j-th of A, B, C, D, least significant first;
DIGEST[j] holds that Word itself as FINALIZE writes it, so the byte is DIGEST[j][8m+7:8m]. -/
def Obligations.DigestBytesAreTheLanesOfDigest : Prop :=
  ∀ (e : Engine) (j m : Nat) (hj : j < 4), m < 4 →
    let words : Vector Word 4 := #v[e.ds.a, e.ds.b, e.ds.c, e.ds.d]
    (digestBytes e.ds).length = 16 ∧
      (digestBytes e.ds)[4 * j + m]? = some (words[j].extractLsb' (8 * m) 8) ∧
      e.publish.digest[j] = words[j] ∧
      (digestBytes e.ds)[4 * j + m]? = some (e.publish.digest[j].extractLsb' (8 * m) 8)

/-- 20_memory.md R56: the length field is the 64-bit count, least significant byte first. -/
def Obligations.LengthFieldIsTheCountLittleEndian : Prop :=
  ∀ cnt : Counter, lengthField cnt = (List.range 8).map fun m => cnt.extractLsb' (8 * m) 8

/-! ### The streaming engine -/

/-- 43_engine.md R161 and 10_state.md R24: for an input of every length the counter advances exactly mod 2^64, and the fill
level with it mod 64. -/
def Obligations.CounterAndFillLevelAdvanceExactly : Prop :=
  ∀ (e : Engine) (input : List Byte), ∃ e' : Engine, update e input = .ok e' ∧
    e'.cnt.toNat = (e.cnt.toNat + 8 * input.length) % 2 ^ 64 ∧
    fillLevel e'.cnt = (fillLevel e.cnt + input.length) % 64 ∧
    e'.pendingBytes.length = (fillLevel e.cnt + input.length) % 64

/-- 43_engine.md R166: the padding length of every fill level lies in 1 to 64, takes the formula's values, and counts the
0x80 byte. -/
def Obligations.PaddingLengthFollowsItsFormula : Prop :=
  (∀ index : Nat, index < 64 →
    padLen index = (if index < 56 then 56 else 120) - index ∧ 1 ≤ padLen index ∧ padLen index ≤ 64 ∧
      padding.take (padLen index) = 0x80 :: List.replicate (padLen index - 1) 0x00) ∧
    padLen 0 = 56 ∧ padLen 55 = 1 ∧ padLen 56 = 64 ∧ padLen 63 = 57

/-- 43_engine.md R167: for every byte count n the padded length is a multiple of 64, in both of the rule's forms; the
form with one byte more gives 65 for n = 0. -/
def Obligations.PaddedLengthIsWholeBlocks : Prop :=
  ∀ n : Nat, (n + padLen (n % 64) + 8) % 64 = 0 ∧
    (∃ z : Nat, z = padLen (n % 64) - 1 ∧ (n + 1 + z + 8) % 64 = 0) ∧ 0 + 1 + padLen 0 + 8 = 65

/-- 43_engine.md R171: from every engine, any sequence of updates yields the digest of the one update with the
concatenated bytes, and the same message state but for stale bytes. -/
def Obligations.DigestDoesNotDependOnTheSplit : Prop :=
  ∀ (e : Engine) (pieces : List (List Byte)), ∃ (e1 e2 f1 f2 : Engine) (d : List Byte),
    pieces.foldlM update e = .ok e1 ∧ update e pieces.flatten = .ok e2 ∧ e1.SameMessage e2 ∧
      finalize e1 = .ok (f1, d) ∧ finalize e2 = .ok (f2, d)

/-- 43_engine.md R169 with R160, R166 and R168: hash(bytes) is the digest of the padded message's consecutive 64-byte
blocks, compressed in order from the initial state. -/
def Obligations.HashIsTheOneShotDigest : Prop :=
  ∀ m : List Byte, hashMessage m = .ok (digestBytes (oneShot m))

/-- 44_commands.md R199 and 70_reset_and_hazards.md R262: every host event keeps the engine showing the session the host
thinks of. While a message is absorbed the engine holds its bytes; after FINALIZE, DIGEST is the one-shot digest of the
concatenated bytes; after an error the code of the first one stands. -/
def Obligations.EngineShowsTheHostsSession : Prop :=
  ∀ (s t : State) (g : Session) (ev : HostEvent), s.engine.Shows g → serve ev s = .next t →
    t.engine.Shows (g.event s.engine.data ev)

/-- 30_encoding.md R83: the accesses of HASH m, served from any state under the policy wrap, or under either policy for a
message below 2^64 bits, end in phase DONE with the one-shot digest of m in DIGEST. -/
def Obligations.HashPseudoInstructionDigestsItsBytes : Prop :=
  ∀ (s : State) (m : List Byte), s.params.lengthOverflow = .wrap ∨ 8 * m.length < 2 ^ 64 →
    ∃ t : State, serveAll (lineEvents (hashLines m)) s = .next t ∧ statusWord t.engine = 0x00000002 ∧
      t.engine.digest = #v[(oneShot m).a, (oneShot m).b, (oneShot m).c, (oneShot m).d]

/-! ### The bus -/

/-- 10_state.md R34: the fields of the STATUS word, and a read of 0x08 returns it and has no side effect. -/
def Obligations.StatusWordHasItsFields : Prop :=
  (∀ s : State, serve (.read .word 0x08) s = .next { s with reads := s.reads ++ [statusWord s.engine] }) ∧
  ∀ e : Engine, (statusWord e).extractLsb' 0 1 = 0 ∧
    (statusWord e).extractLsb' 1 2 = (match e.phase with | .active => 0b00 | .done => 0b01 | .error => 0b10) ∧
    (statusWord e).extractLsb' 3 1 = 0 ∧ (statusWord e).extractLsb' 4 4 = e.errcode ∧
    (statusWord e).extractLsb' 8 24 = 0

/-- 44_commands.md R196 with 60_exceptions.md R221: in a state of the invariant STATUS is 0x00000000 in ACTIVE, 0x00000002
in DONE, and 0x00000034 or 0x00000044 in ERROR. -/
def Obligations.StatusOfAReachableStateIsOneOfFour : Prop :=
  ∀ e : Engine, e.Inv → match e.phase with
    | .active => statusWord e = 0x00000000
    | .done => statusWord e = 0x00000002
    | .error => statusWord e = 0x00000034 ∨ statusWord e = 0x00000044

/-- 44_commands.md R196 to R198 and 20_memory.md R60: a 32-bit read returns the register's Word, 0 for CMD and for the
unmapped word, and changes nothing of the engine, whatever access follows it; a second read of the address right after
it returns the same. -/
def Obligations.ReadsReturnTheRegisterAndChangeNothing : Prop :=
  ∀ (s : State) (addr : BitVec 5), s.seq = none →
    ∀ p ∈ [((0x00 : BitVec 5), (0 : Word)), (0x04, s.engine.data), (0x08, statusWord s.engine), (0x0C, 0),
        (0x10, s.engine.digest[0]), (0x14, s.engine.digest[1]), (0x18, s.engine.digest[2]),
        (0x1C, s.engine.digest[3])],
      addr = p.1 →
        (∀ rest : List HostEvent, s.pending = .read .word addr :: rest →
          step s = .next { s with pending := rest, reads := s.reads ++ [p.2] }) ∧
        ∀ rest : List HostEvent, s.pending = .read .word addr :: .read .word addr :: rest →
          stepMany 2 s = .next { s with pending := rest, reads := s.reads ++ [p.2, p.2] }

/-- 20_memory.md R61: reads of CMD and 0x0C return 0, and writes to STATUS, DIGEST0 to DIGEST3 and 0x0C change no state. -/
def Obligations.UnmappedAndReadOnlyAccessesAreQuiet : Prop :=
  ∀ (s : State) (rest : List HostEvent), s.seq = none →
    (∀ addr : BitVec 5, addr = 0x00 ∨ addr = 0x0C → s.pending = .read .word addr :: rest →
      step s = .next { s with pending := rest, reads := s.reads ++ [0] }) ∧
      ∀ (addr : BitVec 5) (v : Word), addr ∈ [0x08, 0x0C, 0x10, 0x14, 0x18, 0x1C] →
        s.pending = .write .word addr v :: rest → step s = .next { s with pending := rest }

/-- 44_commands.md R195: a write to DATA sets DATA and changes nothing else, in every phase. -/
def Obligations.DataWriteSetsDataAlone : Prop :=
  ∀ (s : State) (v : Word) (rest : List HostEvent), s.seq = none → s.pending = .write .word 0x04 v :: rest →
    step s = .next { s with pending := rest, engine := { s.engine with data := v } }

/-- 20_memory.md R58 (D19, U14): a byte, halfword or misaligned access has no meaning; the model, like the spec's default,
refuses it. -/
def Obligations.SubwordAndMisalignedAccessesAreRefused : Prop :=
  ∀ (s : State) (width : Width) (addr : BitVec 5) (v : Word) (rest : List HostEvent), s.seq = none →
    (width ≠ .word ∨ addr.toNat % 4 ≠ 0) →
    s.pending = .write width addr v :: rest ∨ s.pending = .read width addr :: rest →
      step s = .refused .subwordAccess

/-- 44_commands.md R190: when the next host event is a write to CMD of a word that decodes to i, the step is exec of i at
the state with that event taken; so is the step after withFetchWord. The list of waiting events is the model's form of
the host (assumption 6). -/
def Obligations.CommandStepRunsTheDecodedInstruction : Prop :=
  ∀ (s : State) (w : Word) (i : Instr), decode (.cmd w) = .ok i →
    (∀ rest : List HostEvent, s.seq = none → s.pending = .write .word 0x00 w :: rest →
      step s = exec i (s.setPending rest)) ∧
      step (s.withFetchWord 32 w.toNat) = exec i (s.setSeq none)

/-- A transform taken one machine step at a time: with a transform in progress at index i, the step is exec of the
instruction i decodes to, the waiting host events stay, and the index advances by 1; after index 63 the working
registers are added onto the DigestState and the transform is over. That a machine step runs one STEP is the model's
choice (assumption 1), and that host events wait meanwhile is another (assumption 4): 44_commands.md R190 has no step
but the host's accesses. Only the order of the indices (10_state.md R28, 42_transform.md R142) and the one addition after
the last (42_transform.md R144) are the spec's. -/
def Obligations.TransformStepRunsTheDecodedInstruction : Prop :=
  ∀ (s t : State) (i : Fin 64) (ins : Instr), s.seq = some i → decode (.step (BitVec.ofNat 6 i.val)) = .ok ins →
    exec ins s = .next t →
    (∀ h : i.val + 1 < 64, step s = .next { t with seq := some ⟨i.val + 1, h⟩ }) ∧
      (i.val = 63 → step s = .next
        { t with
          seq := none
          engine :=
            { t.engine with
              ds := ⟨t.engine.ds.a + t.work.a, t.engine.ds.b + t.work.b,
                t.engine.ds.c + t.work.c, t.engine.ds.d + t.work.d⟩ } })

/-- 60_exceptions.md R238: with no access waiting and no transform in progress the machine holds all state. That a step is
taken then at all is the model's reading (assumption 15). -/
def Obligations.IdleMachineHoldsAllState : Prop :=
  ∀ s : State, s.seq = none → s.pending = [] → step s = .next s

/-- 20_memory.md R64: as many steps as there are accesses serve them as the left fold of the per-access rules, in the order
issued. The list of waiting events is the model's form of the host (assumption 6). -/
def Obligations.AccessesTakeEffectInOrder : Prop :=
  ∀ (s : State) (evs rest : List HostEvent), s.seq = none → s.pending = evs ++ rest →
    stepMany evs.length s = serveAll evs (s.setPending rest)

/-- 10_state.md R38: who writes what. A step that changes a field of the engine is one of the field's writers: DATA by a
write to 0x04 or a reinitialisation; DIGEST by FINALIZE or a reinitialisation; the counter by UPDATE, FINALIZE or a
reinitialisation; the DigestState by those or by the end of a transform in progress (assumption 1); a byte of Buf by
UPDATE or FINALIZE; the phase and the error code by FINALIZE, by a reinitialisation, or by a command that enters ERROR
and writes nothing else. A host read writes nothing of the engine. The instance's parameters are written by no step. -/
def Obligations.EveryFieldHasItsWriters : Prop :=
  ∀ s t : State, step s = .next t →
    (t.engine.data ≠ s.engine.data → (∃ v : Word, s.NextIs (.write .word 0x04 v)) ∨ s.NextReinit) ∧
      (t.engine.digest ≠ s.engine.digest → s.NextCommand 0x03000000 ∨ s.NextReinit) ∧
      (t.engine.cnt ≠ s.engine.cnt → s.NextUpdate ∨ s.NextCommand 0x03000000 ∨ s.NextReinit) ∧
      (t.engine.ds ≠ s.engine.ds →
        s.NextUpdate ∨ s.NextCommand 0x03000000 ∨ s.NextReinit ∨ s.seq = some 63) ∧
      ((∃ j, t.engine.buf.byteAt j ≠ s.engine.buf.byteAt j) → s.NextUpdate ∨ s.NextCommand 0x03000000) ∧
      (t.engine.phase ≠ s.engine.phase ∨ t.engine.errcode ≠ s.engine.errcode →
        (s.NextCommand 0x03000000 ∧ t.engine.phase = .done ∧ t.engine.errcode = s.engine.errcode) ∨ s.NextReinit ∨
          ((∃ w : Word, s.NextCommand w) ∧ t.engine.phase = .error ∧
            t.engine = { s.engine with phase := t.engine.phase, errcode := t.engine.errcode })) ∧
      (∀ addr : BitVec 5, s.NextIs (.read .word addr) → t.engine = s.engine) ∧
      t.params = s.params

/-! ### Invariants of the whole machine -/

/-- The machine's invariant holds after reset (10_state.md R24, R26, R27, R33, R37). -/
def Obligations.ResetMeetsTheInvariant : Prop := State.reset.Inv

/-- From every state of the invariant a step gives a state of the invariant: the buffer's canonical form, cnt[2:0] = 0
(10_state.md R24), phase = ERROR exactly when errcode ≠ 0 (R27), no code but 0, 3 and 4 (60_exceptions.md R221, R223),
DIGEST 0 before FINALIZE and the DigestState after it (44_commands.md R194, R197); and a stepped transform, which the
model adds (assumption 1), is in progress in phase ACTIVE only. -/
def Obligations.EveryStepKeepsTheInvariant : Prop :=
  ∀ s t : State, s.Inv → step s = .next t → t.Inv

/-- 10_state.md R25 and R37: the stale bytes of the buffer, its contents at reset among them, are never read: two states
that differ in stale bytes only end in outcomes that do so too, with the same values read by the host. -/
def Obligations.StaleBytesAreUnobservable : Prop :=
  ∀ s t : State, s.SameButStale t → SameOutcome (step s) (step t)
end

