-- ==== Sys2Proof/Laws/Codec.lean ====
section
/-! SUPPORT. The codec and BlockTransform: lengths, and the total form of BlockTransform on a block of 64 bytes. -/

namespace Sys2Proof.Machine

/-- The Word of four bytes is their little-endian number (41_codec.md R121). -/
theorem bytesWord_toNat (b0 b1 b2 b3 : Byte) : (bytesWord b0 b1 b2 b3).toNat =
    b0.toNat + 2 ^ 8 * b1.toNat + 2 ^ 16 * b2.toNat + 2 ^ 24 * b3.toNat := by
  have h : (bytesWord b0 b1 b2 b3).toNat = (b3 ++ b2 ++ b1 ++ b0).toNat := rfl
  have := b0.isLt; have := b1.isLt; have := b2.isLt
  rw [h, BitVec.toNat_append, BitVec.toNat_append, BitVec.toNat_append]
  rw [← Nat.shiftLeft_add_eq_or_of_lt (by assumption), ← Nat.shiftLeft_add_eq_or_of_lt (by assumption),
    ← Nat.shiftLeft_add_eq_or_of_lt (by assumption)]
  simp only [Nat.shiftLeft_eq]; omega

/-- The bytes of a Word of four bytes are those bytes (R124). -/
theorem wordBytes_bytesWord (b0 b1 b2 b3 : Byte) :
    wordBytes (bytesWord b0 b1 b2 b3) = [b0, b1, b2, b3] := by
  have h := bytesWord_toNat b0 b1 b2 b3
  have := b0.isLt; have := b1.isLt; have := b2.isLt; have := b3.isLt
  simp only [wordBytes, List.cons.injEq, and_true]
  refine ⟨?_, ?_, ?_, ?_⟩ <;> apply BitVec.eq_of_toNat_eq <;>
    simp only [BitVec.extractLsb'_toNat, h, Nat.shiftRight_eq_div_pow] <;> omega

/-- The Word of the bytes of w is w (R123). -/
theorem bytesWord_wordBytes (w : Word) :
    bytesWord (w.extractLsb' 0 8) (w.extractLsb' 8 8) (w.extractLsb' 16 8) (w.extractLsb' 24 8) = w := by
  apply BitVec.eq_of_toNat_eq
  have := w.isLt
  simp only [bytesWord_toNat, BitVec.extractLsb'_toNat, Nat.shiftRight_eq_div_pow]; omega

@[simp] theorem wordBytes_length (w : Word) : (wordBytes w).length = 4 := rfl

@[simp] theorem encodeWords_length (ws : List Word) : (encodeWords ws).length = 4 * ws.length := by
  induction ws with
  | nil => rfl
  | cons w ws ih => simp only [encodeWords, List.flatMap_cons, List.length_append, wordBytes_length,
      List.length_cons] at *; omega

@[simp] theorem lengthField_length (n : Counter) : (lengthField n).length = 8 := by simp [lengthField]

@[simp] theorem padding_length : padding.length = 64 := by simp [padding]

@[simp] theorem dataBytes_length (d : Word) (cnt : BitVec 3) : (dataBytes d cnt).length = min cnt.toNat 4 := by
  simp [dataBytes]

/-- A block of 64 bytes never raises (R143, R223): BlockTransform is then compressBlock. -/
theorem blockTransform_eq {block : List Byte} (q : Quad) (h : block.length = 64) :
    blockTransform q block = .ok (compressBlock q block) := by
  simp [blockTransform, decodeWords, h, compressBlock]

/-- A block of another length raises InvalidBlockLength (R143). -/
theorem blockTransform_bad {block : List Byte} (q : Quad) (h : block.length ≠ 64) :
    blockTransform q block = .error (.raised .invalidBlockLength) := by
  simp [blockTransform, h]

/-- The direct chunks never raise: they are compressBlocks, and leave the input after them (R163). -/
theorem directChunks_eq (n : Nat) : ∀ (q : Quad) (bs : List Byte), 64 * n ≤ bs.length →
    directChunks n q bs = .ok (compressBlocks n q bs, bs.drop (64 * n)) := by
  induction n with
  | zero => intro q bs _; simp [directChunks, compressBlocks]
  | succ n ih =>
    intro q bs h
    have hb : (bs.take 64).length = 64 := by simp; omega
    rw [directChunks, blockTransform_eq q hb]
    simp only
    rw [ih _ _ (by simp; omega), compressBlocks, List.drop_drop]
    congr 3
    omega

end Sys2Proof.Machine
end

