-- ==== Sys2Proof/Laws/Decode.lean ====
section
/-! SUPPORT. What decodes to what: the command words, and the step index of every STEP row. -/

namespace Sys2Proof

/-- The fields of a command word as numbers (30_encoding.md R71). -/
theorem cmdOpc_toNat (w : Word) : (cmdOpc w).toNat = w.toNat / 2 ^ 24 := by
  simp only [cmdOpc, BitVec.extractLsb'_toNat, Nat.shiftRight_eq_div_pow]; omega

theorem cmdRsv_toNat (w : Word) : (cmdRsv w).toNat = w.toNat / 2 ^ 3 % 2 ^ 21 := by
  simp only [cmdRsv, BitVec.extractLsb'_toNat, Nat.shiftRight_eq_div_pow]

theorem cmdCnt_toNat (w : Word) : (cmdCnt w).toNat = w.toNat % 2 ^ 3 := by
  simp only [cmdCnt, BitVec.extractLsb'_toNat, Nat.shiftRight_eq_div_pow]; omega

/-- A command word decodes to an instruction exactly as its number says (R76, R78). -/
theorem decodeCmd_iff (w : Word) (i : Instr) : decodeCmd w = .ok i ↔
    (w = 0x00000000 ∧ i = .nop) ∨ (w = 0x01000000 ∧ i = .init) ∨
      (∃ cnt : BitVec 3, cnt.toNat ≤ 4 ∧ w = 0x02000000 + cnt.setWidth 32 ∧ i = .update cnt) ∨
      (w = 0x03000000 ∧ i = .finalize) := by
  have ho := cmdOpc_toNat w
  have hr := cmdRsv_toNat w
  have hc := cmdCnt_toNat w
  have hw := w.isLt
  have hupd : ∀ cnt : BitVec 3, (0x02000000#32 + cnt.setWidth 32).toNat = 0x02000000 + cnt.toNat := by decide
  simp only [decodeCmd, ne_eq, ← BitVec.toNat_inj, ho, hr, hc, BitVec.ofNat_eq_ofNat, BitVec.toNat_ofNat, hupd]
  simp only [Nat.reducePow, Nat.reduceMod]
  constructor
  · intro h
    split at h
    · cases h
    · next hrsv =>
      split at h
      · split at h
        · cases h; left; exact ⟨by omega, rfl⟩
        · cases h
      · split at h
        · split at h
          · cases h; right; left; exact ⟨by omega, rfl⟩
          · cases h
        · split at h
          · split at h
            · cases h
              right; right; left
              refine ⟨cmdCnt w, by omega, ?_, rfl⟩
              omega
            · cases h
          · split at h
            · split at h
              · cases h; right; right; right; exact ⟨by omega, rfl⟩
              · cases h
            · cases h
  · rintro (⟨h, rfl⟩ | ⟨h, rfl⟩ | ⟨cnt, hle, h, rfl⟩ | ⟨h, rfl⟩)
    · obtain rfl : w = 0x00000000 := BitVec.eq_of_toNat_eq h
      rfl
    · obtain rfl : w = 0x01000000 := BitVec.eq_of_toNat_eq h
      rfl
    · obtain rfl : w = 0x02000000 + cnt.setWidth 32 := BitVec.eq_of_toNat_eq (h.trans (hupd cnt).symm)
      revert hle; revert cnt; decide
    · obtain rfl : w = 0x03000000 := BitVec.eq_of_toNat_eq h
      rfl

end Sys2Proof
end

