-- ==== Sys2Proof/Laws/Memory.lean ====
section
/-! SUPPORT. The pending buffer: read after write, what a write leaves alone, and the canonical form. -/

namespace Sys2Proof.Machine

theorem Memory.find_put_same (m : Memory) (j : Nat) (b : Byte) : (m.put j b).find j = some b := by
  induction m with
  | nil => simp [Memory.put, Memory.find]
  | cons c rest ih =>
    obtain ⟨k, v⟩ := c
    simp only [Memory.put]
    split
    · simp [Memory.find]
    · split
      · simp [Memory.find]
      · next h1 h2 => simp [Memory.find, ih, Ne.symm h2]

theorem Memory.find_put_other (m : Memory) {i j : Nat} (b : Byte) (h : i ≠ j) :
    (m.put j b).find i = m.find i := by
  induction m with
  | nil => simp [Memory.put, Memory.find, Ne.symm h]
  | cons c rest ih =>
    obtain ⟨k, v⟩ := c
    simp only [Memory.put]
    split
    · simp [Memory.find, Ne.symm h]
    · split
      · next _ h2 => subst h2; simp [Memory.find, Ne.symm h]
      · simp [Memory.find, ih]

/-- Read after write at one offset (20_memory.md R51). -/
@[simp] theorem Memory.byteAt_put_same (m : Memory) (j : Nat) (b : Byte) : (m.put j b).byteAt j = b := by
  simp [Memory.byteAt, Memory.find_put_same]

/-- A write leaves every other offset alone. -/
theorem Memory.byteAt_put_other (m : Memory) {i j : Nat} (b : Byte) (h : i ≠ j) :
    (m.put j b).byteAt i = m.byteAt i := by
  simp [Memory.byteAt, Memory.find_put_other m b h]

theorem Memory.risingFrom_put {m : Memory} {lo j : Nat} (b : Byte) (hlo : lo ≤ j) (hj : j < bufSize)
    (h : m.risingFrom lo = true) : (m.put j b).risingFrom lo = true := by
  induction m generalizing lo with
  | nil => simp [Memory.put, Memory.risingFrom, hlo, hj]
  | cons c rest ih =>
    obtain ⟨k, v⟩ := c
    simp only [Memory.risingFrom, Bool.and_eq_true, decide_eq_true_eq] at h
    simp only [Memory.put]
    split
    · next h1 => simp [Memory.risingFrom, hlo, hj, h.1.2, h.2]; omega
    · split
      · next h2 => subst h2; simp [Memory.risingFrom, hlo, hj, h.2]
      · next h1 h2 => simp [Memory.risingFrom, h.1.1, h.1.2, ih (by omega) h.2]

/-- Writing an offset of the buffer keeps the canonical form. -/
theorem Memory.wf_put {m : Memory} {j : Nat} (b : Byte) (hj : j < bufSize) (h : m.wf = true) :
    (m.put j b).wf = true :=
  Memory.risingFrom_put b (Nat.zero_le j) hj h

/-- All that a write inside the buffer can do: it succeeds, stores exactly its bytes, leaves every other offset alone
and keeps the canonical form. -/
theorem bufWrite_spec (s : List Byte) : ∀ (m : Memory) (lo : Nat), lo + s.length ≤ 64 →
    ∃ m', bufWrite m lo s = .ok m' ∧
      (∀ i, i < s.length → m'.byteAt (lo + i) = s.getD i 0) ∧
      (∀ j, (j < lo ∨ lo + s.length ≤ j) → m'.byteAt j = m.byteAt j) ∧
      (m.wf = true → m'.wf = true) := by
  induction s with
  | nil => intro m lo _; exact ⟨m, rfl, by simp, by simp, id⟩
  | cons b rest ih =>
    intro m lo h
    simp only [List.length_cons] at h
    obtain ⟨m', hw, hin, hout, hwf⟩ := ih (m.put lo b) (lo + 1) (by omega)
    refine ⟨m', ?_, ?_, ?_, ?_⟩
    · simp [bufWrite, bufPut, bufSize, show lo < 64 by omega, hw]
    · intro i hi
      rcases i with _ | i
      · simp [hout lo (by omega)]
      · have := hin i (by simpa using hi)
        rw [show lo + (i + 1) = lo + 1 + i by omega, this]; simp
    · intro j hj
      simp only [List.length_cons] at hj
      rw [hout j (by omega), Memory.byteAt_put_other _ _ (by omega)]
    · exact fun hm => hwf (Memory.wf_put b (by simp [bufSize]; omega) hm)

@[simp] theorem bufRead_length (m : Memory) (n : Nat) : (bufRead m n).length = n := by simp [bufRead]

@[simp] theorem bufRead_getElem (m : Memory) (n i : Nat) (h : i < (bufRead m n).length) :
    (bufRead m n)[i] = m.byteAt i := by simp [bufRead]

/-- What Buf[0:n] reads as depends on its first n bytes alone. -/
theorem bufRead_congr {m m' : Memory} {n : Nat} (h : ∀ j, j < n → m.byteAt j = m'.byteAt j) :
    bufRead m n = bufRead m' n := by
  apply List.ext_getElem <;> simp
  exact h

/-- After Buf[lo:lo+len(s)] <- s the buffer up to there reads as before, then s. -/
theorem bufRead_bufWrite {m m' : Memory} {lo : Nat} {s : List Byte} (h : lo + s.length ≤ 64)
    (hw : bufWrite m lo s = .ok m') : bufRead m' (lo + s.length) = bufRead m lo ++ s := by
  obtain ⟨m'', hw', hin, hout, -⟩ := bufWrite_spec s m lo h
  obtain rfl : m' = m'' := by simpa [hw] using hw'
  apply List.ext_getElem (by simp)
  intro i h1 h2
  simp only [bufRead_length] at h1
  rw [bufRead_getElem]
  by_cases hi : i < lo
  · rw [hout i (Or.inl hi), List.getElem_append_left (by simpa using hi), bufRead_getElem]
  · rw [List.getElem_append_right (by simpa using hi)]
    have := hin (i - lo) (by omega)
    rw [show lo + (i - lo) = i by omega] at this
    rw [this, List.getD_eq_getElem _ _ (show i - lo < s.length by omega)]
    simp

/-- A full buffer: Buf[0:64] after its free part is written is the bytes before, then those written (R162). -/
theorem bufBlock_bufWrite {m m' : Memory} {lo : Nat} {s : List Byte} (h : lo + s.length = 64)
    (hw : bufWrite m lo s = .ok m') : bufBlock m' = bufRead m lo ++ s := by
  have := bufRead_bufWrite (by omega) hw
  rwa [h] at this

end Sys2Proof.Machine
end

