-- ==== Sys2Proof/Laws/State.lean ====
section
/-! SUPPORT. One lemma per field and update of EngineState and of the machine's state. -/

namespace Sys2Proof.Machine

@[simp] theorem Engine.setDs_ds (y : Engine) (q : Quad) : (y.setDs q).ds = q := rfl
@[simp] theorem Engine.setDs_cnt (y : Engine) (q : Quad) : (y.setDs q).cnt = y.cnt := rfl
@[simp] theorem Engine.setDs_buf (y : Engine) (q : Quad) : (y.setDs q).buf = y.buf := rfl
@[simp] theorem Engine.setDs_phase (y : Engine) (q : Quad) : (y.setDs q).phase = y.phase := rfl
@[simp] theorem Engine.setDs_errcode (y : Engine) (q : Quad) : (y.setDs q).errcode = y.errcode := rfl
@[simp] theorem Engine.setDs_data (y : Engine) (q : Quad) : (y.setDs q).data = y.data := rfl
@[simp] theorem Engine.setDs_digest (y : Engine) (q : Quad) : (y.setDs q).digest = y.digest := rfl
@[simp] theorem Engine.setCnt_ds (y : Engine) (n : Counter) : (y.setCnt n).ds = y.ds := rfl
@[simp] theorem Engine.setCnt_cnt (y : Engine) (n : Counter) : (y.setCnt n).cnt = n := rfl
@[simp] theorem Engine.setCnt_buf (y : Engine) (n : Counter) : (y.setCnt n).buf = y.buf := rfl
@[simp] theorem Engine.setCnt_phase (y : Engine) (n : Counter) : (y.setCnt n).phase = y.phase := rfl
@[simp] theorem Engine.setCnt_errcode (y : Engine) (n : Counter) : (y.setCnt n).errcode = y.errcode := rfl
@[simp] theorem Engine.setCnt_data (y : Engine) (n : Counter) : (y.setCnt n).data = y.data := rfl
@[simp] theorem Engine.setCnt_digest (y : Engine) (n : Counter) : (y.setCnt n).digest = y.digest := rfl
@[simp] theorem Engine.setBuf_ds (y : Engine) (m : Memory) : (y.setBuf m).ds = y.ds := rfl
@[simp] theorem Engine.setBuf_cnt (y : Engine) (m : Memory) : (y.setBuf m).cnt = y.cnt := rfl
@[simp] theorem Engine.setBuf_buf (y : Engine) (m : Memory) : (y.setBuf m).buf = m := rfl
@[simp] theorem Engine.setBuf_phase (y : Engine) (m : Memory) : (y.setBuf m).phase = y.phase := rfl
@[simp] theorem Engine.setBuf_errcode (y : Engine) (m : Memory) : (y.setBuf m).errcode = y.errcode := rfl
@[simp] theorem Engine.setBuf_data (y : Engine) (m : Memory) : (y.setBuf m).data = y.data := rfl
@[simp] theorem Engine.setBuf_digest (y : Engine) (m : Memory) : (y.setBuf m).digest = y.digest := rfl
@[simp] theorem Engine.setPhase_ds (y : Engine) (p : Phase) : (y.setPhase p).ds = y.ds := rfl
@[simp] theorem Engine.setPhase_cnt (y : Engine) (p : Phase) : (y.setPhase p).cnt = y.cnt := rfl
@[simp] theorem Engine.setPhase_buf (y : Engine) (p : Phase) : (y.setPhase p).buf = y.buf := rfl
@[simp] theorem Engine.setPhase_phase (y : Engine) (p : Phase) : (y.setPhase p).phase = p := rfl
@[simp] theorem Engine.setPhase_errcode (y : Engine) (p : Phase) : (y.setPhase p).errcode = y.errcode := rfl
@[simp] theorem Engine.setPhase_data (y : Engine) (p : Phase) : (y.setPhase p).data = y.data := rfl
@[simp] theorem Engine.setPhase_digest (y : Engine) (p : Phase) : (y.setPhase p).digest = y.digest := rfl
@[simp] theorem Engine.setErrcode_ds (y : Engine) (c : BitVec 4) : (y.setErrcode c).ds = y.ds := rfl
@[simp] theorem Engine.setErrcode_cnt (y : Engine) (c : BitVec 4) : (y.setErrcode c).cnt = y.cnt := rfl
@[simp] theorem Engine.setErrcode_buf (y : Engine) (c : BitVec 4) : (y.setErrcode c).buf = y.buf := rfl
@[simp] theorem Engine.setErrcode_phase (y : Engine) (c : BitVec 4) : (y.setErrcode c).phase = y.phase := rfl
@[simp] theorem Engine.setErrcode_errcode (y : Engine) (c : BitVec 4) : (y.setErrcode c).errcode = c := rfl
@[simp] theorem Engine.setErrcode_data (y : Engine) (c : BitVec 4) : (y.setErrcode c).data = y.data := rfl
@[simp] theorem Engine.setErrcode_digest (y : Engine) (c : BitVec 4) : (y.setErrcode c).digest = y.digest := rfl
@[simp] theorem Engine.setData_ds (y : Engine) (v : Word) : (y.setData v).ds = y.ds := rfl
@[simp] theorem Engine.setData_cnt (y : Engine) (v : Word) : (y.setData v).cnt = y.cnt := rfl
@[simp] theorem Engine.setData_buf (y : Engine) (v : Word) : (y.setData v).buf = y.buf := rfl
@[simp] theorem Engine.setData_phase (y : Engine) (v : Word) : (y.setData v).phase = y.phase := rfl
@[simp] theorem Engine.setData_errcode (y : Engine) (v : Word) : (y.setData v).errcode = y.errcode := rfl
@[simp] theorem Engine.setData_data (y : Engine) (v : Word) : (y.setData v).data = v := rfl
@[simp] theorem Engine.setData_digest (y : Engine) (v : Word) : (y.setData v).digest = y.digest := rfl
@[simp] theorem Engine.setDigest_ds (y : Engine) (v : Vector Word 4) : (y.setDigest v).ds = y.ds := rfl
@[simp] theorem Engine.setDigest_cnt (y : Engine) (v : Vector Word 4) : (y.setDigest v).cnt = y.cnt := rfl
@[simp] theorem Engine.setDigest_buf (y : Engine) (v : Vector Word 4) : (y.setDigest v).buf = y.buf := rfl
@[simp] theorem Engine.setDigest_phase (y : Engine) (v : Vector Word 4) : (y.setDigest v).phase = y.phase := rfl
@[simp] theorem Engine.setDigest_errcode (y : Engine) (v : Vector Word 4) : (y.setDigest v).errcode = y.errcode := rfl
@[simp] theorem Engine.setDigest_data (y : Engine) (v : Vector Word 4) : (y.setDigest v).data = y.data := rfl
@[simp] theorem Engine.setDigest_digest (y : Engine) (v : Vector Word 4) : (y.setDigest v).digest = v := rfl

@[simp] theorem State.setEngine_engine (y : State) (e : Engine) : (y.setEngine e).engine = e := rfl
@[simp] theorem State.setEngine_work (y : State) (e : Engine) : (y.setEngine e).work = y.work := rfl
@[simp] theorem State.setEngine_x (y : State) (e : Engine) : (y.setEngine e).x = y.x := rfl
@[simp] theorem State.setEngine_seq (y : State) (e : Engine) : (y.setEngine e).seq = y.seq := rfl
@[simp] theorem State.setEngine_pending (y : State) (e : Engine) : (y.setEngine e).pending = y.pending := rfl
@[simp] theorem State.setEngine_reads (y : State) (e : Engine) : (y.setEngine e).reads = y.reads := rfl
@[simp] theorem State.setEngine_params (y : State) (e : Engine) : (y.setEngine e).params = y.params := rfl
@[simp] theorem State.setWork_engine (y : State) (q : Quad) : (y.setWork q).engine = y.engine := rfl
@[simp] theorem State.setWork_work (y : State) (q : Quad) : (y.setWork q).work = q := rfl
@[simp] theorem State.setWork_x (y : State) (q : Quad) : (y.setWork q).x = y.x := rfl
@[simp] theorem State.setWork_seq (y : State) (q : Quad) : (y.setWork q).seq = y.seq := rfl
@[simp] theorem State.setWork_pending (y : State) (q : Quad) : (y.setWork q).pending = y.pending := rfl
@[simp] theorem State.setWork_reads (y : State) (q : Quad) : (y.setWork q).reads = y.reads := rfl
@[simp] theorem State.setWork_params (y : State) (q : Quad) : (y.setWork q).params = y.params := rfl
@[simp] theorem State.setX_engine (y : State) (v : Vector Word 16) : (y.setX v).engine = y.engine := rfl
@[simp] theorem State.setX_work (y : State) (v : Vector Word 16) : (y.setX v).work = y.work := rfl
@[simp] theorem State.setX_x (y : State) (v : Vector Word 16) : (y.setX v).x = v := rfl
@[simp] theorem State.setX_seq (y : State) (v : Vector Word 16) : (y.setX v).seq = y.seq := rfl
@[simp] theorem State.setX_pending (y : State) (v : Vector Word 16) : (y.setX v).pending = y.pending := rfl
@[simp] theorem State.setX_reads (y : State) (v : Vector Word 16) : (y.setX v).reads = y.reads := rfl
@[simp] theorem State.setX_params (y : State) (v : Vector Word 16) : (y.setX v).params = y.params := rfl
@[simp] theorem State.setSeq_engine (y : State) (i : Option (Fin 64)) : (y.setSeq i).engine = y.engine := rfl
@[simp] theorem State.setSeq_work (y : State) (i : Option (Fin 64)) : (y.setSeq i).work = y.work := rfl
@[simp] theorem State.setSeq_x (y : State) (i : Option (Fin 64)) : (y.setSeq i).x = y.x := rfl
@[simp] theorem State.setSeq_seq (y : State) (i : Option (Fin 64)) : (y.setSeq i).seq = i := rfl
@[simp] theorem State.setSeq_pending (y : State) (i : Option (Fin 64)) : (y.setSeq i).pending = y.pending := rfl
@[simp] theorem State.setSeq_reads (y : State) (i : Option (Fin 64)) : (y.setSeq i).reads = y.reads := rfl
@[simp] theorem State.setSeq_params (y : State) (i : Option (Fin 64)) : (y.setSeq i).params = y.params := rfl
@[simp] theorem State.setPending_engine (y : State) (l : List HostEvent) : (y.setPending l).engine = y.engine := rfl
@[simp] theorem State.setPending_work (y : State) (l : List HostEvent) : (y.setPending l).work = y.work := rfl
@[simp] theorem State.setPending_x (y : State) (l : List HostEvent) : (y.setPending l).x = y.x := rfl
@[simp] theorem State.setPending_seq (y : State) (l : List HostEvent) : (y.setPending l).seq = y.seq := rfl
@[simp] theorem State.setPending_pending (y : State) (l : List HostEvent) : (y.setPending l).pending = l := rfl
@[simp] theorem State.setPending_reads (y : State) (l : List HostEvent) : (y.setPending l).reads = y.reads := rfl
@[simp] theorem State.setPending_params (y : State) (l : List HostEvent) : (y.setPending l).params = y.params := rfl
@[simp] theorem State.setReads_engine (y : State) (l : List Word) : (y.setReads l).engine = y.engine := rfl
@[simp] theorem State.setReads_work (y : State) (l : List Word) : (y.setReads l).work = y.work := rfl
@[simp] theorem State.setReads_x (y : State) (l : List Word) : (y.setReads l).x = y.x := rfl
@[simp] theorem State.setReads_seq (y : State) (l : List Word) : (y.setReads l).seq = y.seq := rfl
@[simp] theorem State.setReads_pending (y : State) (l : List Word) : (y.setReads l).pending = y.pending := rfl
@[simp] theorem State.setReads_reads (y : State) (l : List Word) : (y.setReads l).reads = l := rfl
@[simp] theorem State.setReads_params (y : State) (l : List Word) : (y.setReads l).params = y.params := rfl

end Sys2Proof.Machine
end

