-- ==== Sys2Proof/Laws/Engine.lean ====
section
/-! SUPPORT. All that update and finalize can do: they never abort, and what they leave in every field. -/

namespace Sys2Proof.Machine

theorem fillLevel_eq (cnt : Counter) : fillLevel cnt = cnt.toNat / 8 % 64 := by
  simp [fillLevel, Nat.shiftRight_eq_div_pow]

theorem fillLevel_lt (cnt : Counter) : fillLevel cnt < 64 := Nat.mod_lt _ (by decide)

theorem advanceCounter_toNat (cnt : Counter) (len : Nat) :
    (advanceCounter cnt len).toNat = (cnt.toNat + 8 * len) % 2 ^ 64 := by
  simp [advanceCounter]

/-- The fill level follows the counter, also over a wrap (10_state.md R24, 43_engine.md R164). -/
theorem fillLevel_advance (cnt : Counter) (len : Nat) :
    fillLevel (advanceCounter cnt len) = (fillLevel cnt + len) % 64 := by
  rw [fillLevel_eq, fillLevel_eq, advanceCounter_toNat]
  omega

@[simp] theorem pendingBytes_length (e : Engine) : e.pendingBytes.length = fillLevel e.cnt := by
  simp [Engine.pendingBytes]

/-- The engine update leaves, given its new buffer: the counter advanced, the DigestState compressed over the blocks that
the pending bytes and the input complete together. -/
def updated (e : Engine) (input : List Byte) (buf : Memory) : Engine :=
  { e with
    ds := compressBlocks ((e.pendingBytes ++ input).length / 64) e.ds (e.pendingBytes ++ input)
    cnt := advanceCounter e.cnt input.length
    buf := buf }

/-- All that update can do (R160 to R164): it never aborts; the new pending bytes are what is left of the old ones
followed by the input; only the offsets from the fill level on, mod 64, are stored to; the canonical form is kept. -/
theorem update_spec (e : Engine) (input : List Byte) :
    ∃ buf, update e input = .ok (updated e input buf) ∧
      (updated e input buf).pendingBytes =
        (e.pendingBytes ++ input).drop (64 * ((e.pendingBytes ++ input).length / 64)) ∧
      (∀ j, (∀ m, m < input.length → j ≠ (fillLevel e.cnt + m) % 64) → buf.byteAt j = e.buf.byteAt j) ∧
      (e.buf.wf = true → buf.wf = true) := by
  have hidx := fillLevel_lt e.cnt
  have hlen : (e.pendingBytes ++ input).length = fillLevel e.cnt + input.length := by simp
  by_cases hL : input.length < 64 - fillLevel e.cnt
  · obtain ⟨buf, hw, -, hout, hwf⟩ := bufWrite_spec input e.buf (fillLevel e.cnt) (by omega)
    have hn : (e.pendingBytes ++ input).length / 64 = 0 := by omega
    refine ⟨buf, ?_, ?_, ?_, hwf⟩
    · simp only [update, if_pos hL, hw]
      simp only [updated, hn, compressBlocks, Engine.setCnt, Engine.setBuf]
    · have hf : fillLevel (advanceCounter e.cnt input.length) = fillLevel e.cnt + input.length := by
        rw [fillLevel_advance]; omega
      rw [hn]
      simp only [Engine.pendingBytes, updated, hf]
      exact bufRead_bufWrite (by omega) hw
    · intro j hj
      by_cases hlo : j < fillLevel e.cnt
      · exact hout j (Or.inl hlo)
      · by_cases hhi : fillLevel e.cnt + input.length ≤ j
        · exact hout j (Or.inr hhi)
        · exact absurd (by omega) (hj (j - fillLevel e.cnt) (by omega))
  · have htake : (input.take (64 - fillLevel e.cnt)).length = 64 - fillLevel e.cnt := by simp; omega
    obtain ⟨b1, hw1, -, hout1, hwf1⟩ :=
      bufWrite_spec (input.take (64 - fillLevel e.cnt)) e.buf (fillLevel e.cnt) (by omega)
    have hblock : bufBlock b1 = (e.pendingBytes ++ input).take 64 := by
      rw [bufBlock_bufWrite (by omega) hw1, List.take_append, pendingBytes_length,
        List.take_of_length_le (show e.pendingBytes.length ≤ 64 by rw [pendingBytes_length]; omega),
        Engine.pendingBytes]
    have hrest : input.drop (64 - fillLevel e.cnt) = (e.pendingBytes ++ input).drop 64 := by
      rw [List.drop_append, pendingBytes_length, 
        List.drop_of_length_le (show e.pendingBytes.length ≤ 64 by rw [pendingBytes_length]; omega), List.nil_append]
    have hrl : ((e.pendingBytes ++ input).drop 64).length = fillLevel e.cnt + input.length - 64 := by simp
    obtain ⟨b2, hw2, -, hout2, hwf2⟩ := bufWrite_spec
      (((e.pendingBytes ++ input).drop 64).drop (64 * (((e.pendingBytes ++ input).drop 64).length / 64))) b1 0
      (by simp only [List.length_drop] at *; omega)
    have hn : (e.pendingBytes ++ input).length / 64 = ((e.pendingBytes ++ input).drop 64).length / 64 + 1 := by
      omega
    have htl : (((e.pendingBytes ++ input).drop 64).drop
        (64 * (((e.pendingBytes ++ input).drop 64).length / 64))).length =
        (fillLevel e.cnt + input.length) % 64 := by
      simp only [List.length_drop] at *; omega
    refine ⟨b2, ?_, ?_, ?_, fun h => hwf2 (hwf1 h)⟩
    · simp only [update, if_neg hL, hw1, dispatch, hrest]
      rw [hblock, blockTransform_eq _ (by simp only [List.length_take]; omega)]
      simp only
      rw [directChunks_eq _ _ _ (by omega)]
      simp only [hw2, updated, hn, compressBlocks, Engine.setCnt, Engine.setBuf, Engine.setDs]
    · have hf : fillLevel (advanceCounter e.cnt input.length) = (fillLevel e.cnt + input.length) % 64 :=
        fillLevel_advance _ _
      simp only [Engine.pendingBytes, updated, hf]
      have := bufRead_bufWrite (by omega) hw2
      rw [Nat.zero_add, htl] at this
      rw [this]
      simp only [bufRead, List.range_zero, List.map_nil, List.nil_append]
      rw [List.drop_drop]
      simp only [Engine.pendingBytes] at hn ⊢
      congr 1
      simp only [bufRead] at *
      omega
    · intro j hj
      have h2 : j < 0 ∨ 0 + (((e.pendingBytes ++ input).drop 64).drop
          (64 * (((e.pendingBytes ++ input).drop 64).length / 64))).length ≤ j := by
        right
        rw [htl, Nat.zero_add]
        by_contra hc
        exact hj (input.length - (fillLevel e.cnt + input.length) % 64 + j) (by omega) (by omega)
      rw [hout2 j h2]
      refine hout1 j ?_
      by_cases hlo : j < fillLevel e.cnt
      · exact Or.inl hlo
      · right
        rw [htake]
        by_contra hc
        exact hj (j - fillLevel e.cnt) (by omega) (by omega)

/-- Compressing a blocks and then b more is compressing a + b blocks. -/
theorem compressBlocks_add (a b : Nat) : ∀ (q : Quad) (l : List Byte),
    compressBlocks (a + b) q l = compressBlocks b (compressBlocks a q l) (l.drop (64 * a)) := by
  induction a with
  | zero => intro q l; simp [compressBlocks]
  | succ a ih =>
    intro q l
    rw [Nat.add_right_comm, compressBlocks, ih, compressBlocks, List.drop_drop]
    congr 2
    omega

/-- The first a blocks do not depend on the bytes after them. -/
theorem compressBlocks_append (a : Nat) : ∀ (q : Quad) (l r : List Byte), 64 * a ≤ l.length →
    compressBlocks a q (l ++ r) = compressBlocks a q l := by
  induction a with
  | zero => intro q l r _; simp [compressBlocks]
  | succ a ih =>
    intro q l r h
    rw [compressBlocks, compressBlocks, List.take_append_of_le_length (by omega),
      List.drop_append_of_le_length (by omega), ih _ _ _ (by simp only [List.length_drop]; omega)]

/-- Compressing the full blocks of p, then those that the rest of p completes together with t, is compressing the full
blocks of p followed by t (43_engine.md R171). -/
theorem compressBlocks_stream (q : Quad) (p t : List Byte) :
    compressBlocks ((p.drop (64 * (p.length / 64)) ++ t).length / 64)
        (compressBlocks (p.length / 64) q p) (p.drop (64 * (p.length / 64)) ++ t) =
      compressBlocks ((p ++ t).length / 64) q (p ++ t) ∧
    (p.drop (64 * (p.length / 64)) ++ t).drop (64 * ((p.drop (64 * (p.length / 64)) ++ t).length / 64)) =
      (p ++ t).drop (64 * ((p ++ t).length / 64)) := by
  have hn : (p ++ t).length / 64 = p.length / 64 + (p.drop (64 * (p.length / 64)) ++ t).length / 64 := by
    simp only [List.length_append, List.length_drop]; omega
  have hd : (p ++ t).drop (64 * (p.length / 64)) = p.drop (64 * (p.length / 64)) ++ t :=
    List.drop_append_of_le_length (by omega)
  constructor
  · rw [hn, compressBlocks_add, hd, compressBlocks_append (p.length / 64) q p t (by omega)]
  · rw [hn, Nat.mul_add, ← List.drop_drop, hd]

/-- update, then update again: the DigestState, the counter and the pending bytes are those of one update with both
inputs (43_engine.md R171). -/
theorem updated_updated (e : Engine) (s t : List Byte) (b1 b2 : Memory)
    (h1 : (updated e s b1).pendingBytes =
      (e.pendingBytes ++ s).drop (64 * ((e.pendingBytes ++ s).length / 64))) :
    updated (updated e s b1) t b2 =
      { e with
        ds := compressBlocks ((e.pendingBytes ++ (s ++ t)).length / 64) e.ds (e.pendingBytes ++ (s ++ t))
        cnt := advanceCounter e.cnt (s ++ t).length
        buf := b2 } := by
  have hs := (compressBlocks_stream e.ds (e.pendingBytes ++ s) t).1
  simp only [updated] at h1 ⊢
  rw [h1, hs, List.append_assoc]
  congr 1
  simp only [advanceCounter, BitVec.add_assoc, List.length_append, Nat.mul_add, BitVec.ofNat_add]

/-- The bytes finalize absorbs: the padding of the fill level and the length field (43_engine.md R168). -/
def trailer (e : Engine) : List Byte := padding.take (padLen (fillLevel e.cnt)) ++ lengthField e.cnt

theorem padLen_bounds {i : Nat} (h : i < 64) : 1 ≤ padLen i ∧ padLen i ≤ 64 ∧ (i + padLen i + 8) % 64 = 0 := by
  unfold padLen; split <;> omega

theorem trailer_length (e : Engine) : (trailer e).length = padLen (fillLevel e.cnt) + 8 := by
  have := padLen_bounds (fillLevel_lt e.cnt)
  simp [trailer]; omega

/-- All that finalize can do (R168): it never aborts; the DigestState is compressed over the pending bytes followed by
the trailer, which fill whole blocks; the buffer is left empty; only the offsets the trailer falls on are stored to. -/
theorem finalize_spec (e : Engine) :
    ∃ buf, finalize e = .ok (updated e (trailer e) buf, digestBytes (updated e (trailer e) buf).ds) ∧
      (e.pendingBytes ++ trailer e).length % 64 = 0 ∧
      fillLevel (updated e (trailer e) buf).cnt = 0 ∧
      (∀ j, (∀ m, m < (trailer e).length → j ≠ (fillLevel e.cnt + m) % 64) → buf.byteAt j = e.buf.byteAt j) ∧
      (e.buf.wf = true → buf.wf = true) := by
  have hb := padLen_bounds (fillLevel_lt e.cnt)
  have hfl := fillLevel_lt e.cnt
  have htl := trailer_length e
  obtain ⟨b1, hu1, hp1, hf1, hw1⟩ := update_spec e (padding.take (padLen (fillLevel e.cnt)))
  obtain ⟨b2, hu2, -, hf2, hw2⟩ :=
    update_spec (updated e (padding.take (padLen (fillLevel e.cnt))) b1) (lengthField e.cnt)
  have htake : (padding.take (padLen (fillLevel e.cnt))).length = padLen (fillLevel e.cnt) := by
    simp; omega
  have hmerge := updated_updated e (padding.take (padLen (fillLevel e.cnt))) (lengthField e.cnt) b1 b2 hp1
  have hfin : fillLevel (updated e (trailer e) b2).cnt = 0 := by
    simp only [updated, fillLevel_advance, htl]; omega
  refine ⟨b2, ?_, ?_, hfin, ?_, fun h => hw2 (hw1 h)⟩
  · simp only [finalize, hu1, hu2]
    rw [show updated (updated e (padding.take (padLen (fillLevel e.cnt))) b1) (lengthField e.cnt) b2 =
      updated e (trailer e) b2 from hmerge, if_pos hfin]
  · simp only [List.length_append, pendingBytes_length, htl]; omega
  · intro j hj
    rw [hf2 j]
    · exact hf1 j fun m hm => hj m (by omega)
    · intro m hm
      rw [lengthField_length] at hm
      simp only [updated, fillLevel_advance, htake]
      have := hj (padLen (fillLevel e.cnt) + m) (by omega)
      omega

end Sys2Proof.Machine
end

