-- ==== Sys2Proof/Laws/Commands.lean ====
section
/-! SUPPORT. What each command and each step of a transform answers, and what one step of the machine can be. -/

namespace Sys2Proof.Machine

/-- Mixing with the round's own function is the step function (42_transform.md R137). -/
theorem mix_eq_stepFn (s : State) (fn : Word → Word → Word → Word) (i : Fin 64) (h : roundFn i = fn) :
    Host.Outcome.next (s.mix fn i) =
      (.next (s.setWork (stepFn i s.work s.x)) : Host.Outcome State Fault Refusal) := by
  subst h; rfl

/-- The STEP row of every index is the step function on the working registers (R137 to R141). -/
theorem exec_decodeStep (i : Fin 64) (s : State) :
    exec (decodeStep (BitVec.ofNat 6 i.val)) s = .next (s.setWork (stepFn i s.work s.x)) := by
  have h : ∀ i : Fin 64, decodeStep (BitVec.ofNat 6 i.val) = stepRows.getD i.val .step0 := by decide
  rw [h]
  fin_cases i <;> exact mix_eq_stepFn s _ _ rfl

/-- UPDATE in phase ACTIVE with a legal CNT, where no policy refuses it (44_commands.md R193). -/
theorem execUpdate_active {s : State} {cnt : BitVec 3} (hp : s.engine.phase = .active) (hc : cnt.toNat ≤ 4)
    (ho : ¬(lengthOverflows s.engine.cnt (dataBytes s.engine.data cnt).length ∧
      s.params.lengthOverflow = .refuse)) :
    ∃ buf, execUpdate cnt s = .next (s.setEngine (updated s.engine (dataBytes s.engine.data cnt) buf)) ∧
      update s.engine (dataBytes s.engine.data cnt) =
        .ok (updated s.engine (dataBytes s.engine.data cnt) buf) := by
  obtain ⟨buf, hu, -⟩ := update_spec s.engine (dataBytes s.engine.data cnt)
  refine ⟨buf, ?_, hu⟩
  simp only [execUpdate, hp, hc, if_true, absorb, if_neg ho, hu, State.commit]

/-- FINALIZE in phase ACTIVE (44_commands.md R194). -/
theorem execFinalize_active {s : State} (hp : s.engine.phase = .active) :
    ∃ buf, execFinalize s = .next (s.setEngine (updated s.engine (trailer s.engine) buf).publish) ∧
      finalize s.engine = .ok (updated s.engine (trailer s.engine) buf,
        digestBytes (updated s.engine (trailer s.engine) buf).ds) := by
  obtain ⟨buf, hf, -⟩ := finalize_spec s.engine
  exact ⟨buf, by simp [execFinalize, hp, hf, State.commit], hf⟩

/-- What a command can answer: nothing changes, the engine is reinitialised, an error is entered, the bytes of DATA are
absorbed, the message is finalized, or the policy refuses the length (44_commands.md R190 to R194). -/
theorem commandWrite_cases (w : Word) (s : State) :
    commandWrite w s = .next s ∨
    (w = 0x01000000 ∧ commandWrite w s = .next (s.setEngine s.engine.reinit)) ∨
    (s.engine.phase ≠ .error ∧ w ≠ 0x01000000 ∧
      (commandWrite w s = .next (s.raise .illegalCommand) ∨
        (s.engine.phase = .done ∧ commandWrite w s = .next (s.raise .useAfterFinalize)))) ∨
    (s.engine.phase = .active ∧ ∃ cnt : BitVec 3, cnt.toNat ≤ 4 ∧ w = 0x02000000 + cnt.setWidth 32 ∧
      ((∃ buf, update s.engine (dataBytes s.engine.data cnt) =
            .ok (updated s.engine (dataBytes s.engine.data cnt) buf) ∧
          commandWrite w s = .next (s.setEngine (updated s.engine (dataBytes s.engine.data cnt) buf))) ∨
        (s.params.lengthOverflow = .refuse ∧ lengthOverflows s.engine.cnt (dataBytes s.engine.data cnt).length ∧
          commandWrite w s = .refused .lengthOverflow))) ∨
    (s.engine.phase = .active ∧ w = 0x03000000 ∧
      ∃ buf, finalize s.engine = .ok (updated s.engine (trailer s.engine) buf,
          digestBytes (updated s.engine (trailer s.engine) buf).ds) ∧
        commandWrite w s = .next (s.setEngine (updated s.engine (trailer s.engine) buf).publish)) := by
  cases hd : decodeCmd w with
  | error e =>
    have hne : w ≠ 0x01000000 := by
      rintro rfl
      rw [(decodeCmd_iff 0x01000000 .init).mpr (Or.inr (Or.inl ⟨rfl, rfl⟩))] at hd
      cases hd
    simp only [commandWrite, decode, hd, illegalCommand]
    cases hp : s.engine.phase with
    | error => exact Or.inl rfl
    | active => exact Or.inr (Or.inr (Or.inl ⟨nofun, hne, Or.inl rfl⟩))
    | done => exact Or.inr (Or.inr (Or.inl ⟨nofun, hne, Or.inl rfl⟩))
  | ok i =>
    have hi := (decodeCmd_iff w i).mp hd
    simp only [commandWrite, decode, hd]
    rcases hi with ⟨-, rfl⟩ | ⟨rfl, rfl⟩ | ⟨cnt, hc, hw, rfl⟩ | ⟨rfl, rfl⟩
    · left; rfl
    · right; left; exact ⟨rfl, rfl⟩
    · have hne : w ≠ 0x01000000 := by
        have : ∀ c : BitVec 3, c.toNat ≤ 4 → 0x02000000 + c.setWidth 32 ≠ (0x01000000 : Word) := by decide
        exact hw ▸ this cnt hc
      simp only [exec]
      cases hp : s.engine.phase with
      | error => left; simp [execUpdate, hp]
      | done => exact Or.inr (Or.inr (Or.inl ⟨nofun, hne, Or.inr ⟨rfl, by simp [execUpdate, hp, hc]⟩⟩))
      | active =>
        right; right; right; left
        refine ⟨rfl, cnt, hc, hw, ?_⟩
        by_cases ho : lengthOverflows s.engine.cnt (dataBytes s.engine.data cnt).length ∧
            s.params.lengthOverflow = .refuse
        · right
          exact ⟨ho.2, ho.1, by simp only [execUpdate, hp, hc, if_true, absorb, if_pos ho]⟩
        · left
          obtain ⟨buf, h1, h2⟩ := execUpdate_active hp hc ho
          exact ⟨buf, h2, h1⟩
    · simp only [exec]
      cases hp : s.engine.phase with
      | error => left; simp [execFinalize, hp]
      | done => exact Or.inr (Or.inr (Or.inl ⟨nofun, by decide, Or.inr ⟨rfl, by simp [execFinalize, hp]⟩⟩))
      | active =>
        obtain ⟨buf, h1, h2⟩ := execFinalize_active hp
        exact Or.inr (Or.inr (Or.inr (Or.inr ⟨rfl, trivial, buf, h2, h1⟩)))

/-- One step with a transform in progress (10_state.md R28, 42_transform.md R142). -/
theorem step_transform {s : State} {i : Fin 64} (h : s.seq = some i) :
    step s = .next ((s.setWork (stepFn i s.work s.x)).sequence i) := by
  simp only [step, advance, h, transformStep, exec_decodeStep]

/-- One step with a host event next. -/
theorem step_event {s : State} {ev : HostEvent} {rest : List HostEvent} (h : s.seq = none)
    (hp : s.pending = ev :: rest) : step s = serve ev (s.setPending rest) := by
  simp [step, advance, h, hp]

/-- One step of an idle machine (60_exceptions.md R238). -/
theorem step_idle {s : State} (h : s.seq = none) (hp : s.pending = []) : step s = .next s := by
  simp [step, advance, h, hp]

end Sys2Proof.Machine
end

