-- ==== Sys2Proof/Laws/Datapath.lean ====
section
/-! SUPPORT. The Word rotation. -/

namespace Sys2Proof.Machine

/-- rotl is the bit-vector rotation (40_word.md R107). -/
theorem rotl_eq_rotateLeft (x : Word) (n : Fin 32) : rotl x n = x.rotateLeft n.val := by
  simp only [rotl, wOr, wShl, wLshr, BitVec.rotateLeft, BitVec.rotateLeftAux]
  rw [Nat.mod_eq_of_lt n.isLt]

end Sys2Proof.Machine
end

