-- ==== Sys2Proof/Laws/PerInstr.lean ====
section
/-! SUPPORT. One lemma per instruction: the decoder gives back every well-formed instruction its encoder writes. -/

namespace Sys2Proof.Laws.RoundTrip

/-- Decoding the encoding of a well-formed instruction gives it back (30_encoding.md R71 to R79). -/
def Statement (i : Instr) : Prop := i.wellFormed = true → decode (encode i) = .ok i

theorem nop : Statement .nop := fun _ => rfl
theorem init : Statement .init := fun _ => rfl
theorem update (cnt : BitVec 3) : Statement (.update cnt) := by revert cnt; unfold Statement; decide
theorem finalize : Statement .finalize := fun _ => rfl
theorem step0 : Statement .step0 := fun _ => rfl
theorem step1 : Statement .step1 := fun _ => rfl
theorem step2 : Statement .step2 := fun _ => rfl
theorem step3 : Statement .step3 := fun _ => rfl
theorem step4 : Statement .step4 := fun _ => rfl
theorem step5 : Statement .step5 := fun _ => rfl
theorem step6 : Statement .step6 := fun _ => rfl
theorem step7 : Statement .step7 := fun _ => rfl
theorem step8 : Statement .step8 := fun _ => rfl
theorem step9 : Statement .step9 := fun _ => rfl
theorem step10 : Statement .step10 := fun _ => rfl
theorem step11 : Statement .step11 := fun _ => rfl
theorem step12 : Statement .step12 := fun _ => rfl
theorem step13 : Statement .step13 := fun _ => rfl
theorem step14 : Statement .step14 := fun _ => rfl
theorem step15 : Statement .step15 := fun _ => rfl
theorem step16 : Statement .step16 := fun _ => rfl
theorem step17 : Statement .step17 := fun _ => rfl
theorem step18 : Statement .step18 := fun _ => rfl
theorem step19 : Statement .step19 := fun _ => rfl
theorem step20 : Statement .step20 := fun _ => rfl
theorem step21 : Statement .step21 := fun _ => rfl
theorem step22 : Statement .step22 := fun _ => rfl
theorem step23 : Statement .step23 := fun _ => rfl
theorem step24 : Statement .step24 := fun _ => rfl
theorem step25 : Statement .step25 := fun _ => rfl
theorem step26 : Statement .step26 := fun _ => rfl
theorem step27 : Statement .step27 := fun _ => rfl
theorem step28 : Statement .step28 := fun _ => rfl
theorem step29 : Statement .step29 := fun _ => rfl
theorem step30 : Statement .step30 := fun _ => rfl
theorem step31 : Statement .step31 := fun _ => rfl
theorem step32 : Statement .step32 := fun _ => rfl
theorem step33 : Statement .step33 := fun _ => rfl
theorem step34 : Statement .step34 := fun _ => rfl
theorem step35 : Statement .step35 := fun _ => rfl
theorem step36 : Statement .step36 := fun _ => rfl
theorem step37 : Statement .step37 := fun _ => rfl
theorem step38 : Statement .step38 := fun _ => rfl
theorem step39 : Statement .step39 := fun _ => rfl
theorem step40 : Statement .step40 := fun _ => rfl
theorem step41 : Statement .step41 := fun _ => rfl
theorem step42 : Statement .step42 := fun _ => rfl
theorem step43 : Statement .step43 := fun _ => rfl
theorem step44 : Statement .step44 := fun _ => rfl
theorem step45 : Statement .step45 := fun _ => rfl
theorem step46 : Statement .step46 := fun _ => rfl
theorem step47 : Statement .step47 := fun _ => rfl
theorem step48 : Statement .step48 := fun _ => rfl
theorem step49 : Statement .step49 := fun _ => rfl
theorem step50 : Statement .step50 := fun _ => rfl
theorem step51 : Statement .step51 := fun _ => rfl
theorem step52 : Statement .step52 := fun _ => rfl
theorem step53 : Statement .step53 := fun _ => rfl
theorem step54 : Statement .step54 := fun _ => rfl
theorem step55 : Statement .step55 := fun _ => rfl
theorem step56 : Statement .step56 := fun _ => rfl
theorem step57 : Statement .step57 := fun _ => rfl
theorem step58 : Statement .step58 := fun _ => rfl
theorem step59 : Statement .step59 := fun _ => rfl
theorem step60 : Statement .step60 := fun _ => rfl
theorem step61 : Statement .step61 := fun _ => rfl
theorem step62 : Statement .step62 := fun _ => rfl
theorem step63 : Statement .step63 := fun _ => rfl

end Sys2Proof.Laws.RoundTrip
end

