-- ==== Sys2Proof/Laws/Step.lean ====
section
/-! SUPPORT. What one step of the machine can be, said once. -/

namespace Sys2Proof.Machine

/-- Every step that answers a next state is one of three: a step of the transform in progress, idling, or a host event
served (44_commands.md R190). -/
theorem step_inv {s t : State} (h : step s = .next t) :
    (∃ i, s.seq = some i ∧ t = (s.setWork (stepFn i s.work s.x)).sequence i) ∨
    (s.seq = none ∧ s.pending = [] ∧ t = s) ∨
    (∃ ev rest, s.seq = none ∧ s.pending = ev :: rest ∧ serve ev (s.setPending rest) = .next t) := by
  cases hs : s.seq with
  | some i => left; rw [step_transform hs] at h; cases h; exact ⟨i, rfl, rfl⟩
  | none =>
    right
    cases hp : s.pending with
    | nil => left; rw [step_idle hs hp] at h; cases h; exact ⟨rfl, rfl, rfl⟩
    | cons ev rest => right; rw [step_event hs hp] at h; exact ⟨ev, rest, rfl, rfl, h⟩

/-- Every host event that is served is one of five: a write to CMD, a write to DATA, a write that is ignored, a read, or
the reset input (10_state.md R35). -/
theorem serve_inv {ev : HostEvent} {s t : State} (h : serve ev s = .next t) :
    (∃ w, ev = .write .word 0 w ∧ commandWrite w s = .next t) ∨
    (∃ v, ev = .write .word 4 v ∧ t = s.setEngine (s.engine.setData v)) ∨
    (∃ a v, ev = .write .word a v ∧ a ≠ 0 ∧ a ≠ 4 ∧ t = s) ∨
    (∃ a, ev = .read .word a ∧ t = busRead a s) ∨
    (ev = .reset ∧ t = resetInput s) := by
  cases ev with
  | write width a v =>
    simp only [serve] at h
    split at h
    · next hf =>
      have hw : width = .word := by simp [fullAccess] at hf; exact hf.1
      subst hw
      simp only [busWrite] at h
      split at h
      · next ha => subst ha; left; exact ⟨v, rfl, h⟩
      · split at h
        · next ha => subst ha; right; left; cases h; exact ⟨v, rfl, rfl⟩
        · next h1 h2 => right; right; left; cases h; exact ⟨a, v, rfl, h1, h2, rfl⟩
    · simp only [subwordAccess] at h; cases h
  | read width a =>
    simp only [serve] at h
    split at h
    · next hf =>
      have hw : width = .word := by simp [fullAccess] at hf; exact hf.1
      subst hw
      cases h; right; right; right; left; exact ⟨a, rfl, rfl⟩
    · simp only [subwordAccess] at h; cases h
  | reset => cases h; right; right; right; right; exact ⟨rfl, rfl⟩

/-- The advance of the step index leaves every field of the engine but the DigestState (10_state.md R28, R38). -/
theorem sequence_frame (s : State) (i : Fin 64) :
    (s.sequence i).engine = s.engine.setDs (s.sequence i).engine.ds ∧ (s.sequence i).params = s.params := by
  unfold State.sequence
  split <;> exact ⟨rfl, rfl⟩

/-- A host event at the head of the waiting accesses is the next one served. -/
theorem nextIs_of_pending {s : State} {ev : HostEvent} {rest : List HostEvent} (h : s.seq = none)
    (hp : s.pending = ev :: rest) : s.NextIs ev := ⟨h, by simp [hp]⟩

end Sys2Proof.Machine
end

