-- ==== Sys2Proof/Tests/Slice0.lean ====
section
/-! SUPPORT. Tests: what is ill-formed is refused, words written out from the encoding tables decode, the vectors of
95_test_vectors.md come out, and every statement's hypotheses are met by a named state. -/

namespace Sys2Proof.Tests

open Sys2Proof Sys2Proof.Machine

/-! ### Ill-formed terms and words (30_encoding.md R73, R74, R77) -/

/-- R73: UPDATE carries no more than four bytes. -/
theorem test_illformed_counts :
    (Instr.update 5).wellFormed = false ∧ (Instr.update 6).wellFormed = false ∧
      (Instr.update 7).wellFormed = false ∧ (Instr.update 4).wellFormed = true := by decide

/-- V-D5, V-D8: a CNT that its OPC does not admit. -/
theorem test_reject_count :
    decodeCmd 0x02000005 = .error .badCount ∧ decodeCmd 0x02000007 = .error .badCount ∧
      decodeCmd 0x01000001 = .error .badCount ∧ decodeCmd 0x00000001 = .error .badCount ∧
      decodeCmd 0x03000004 = .error .badCount := by decide

/-- V-D7, V-D9, V-D10: a reserved OPC, and every end of RSV. -/
theorem test_reject_reserved :
    decodeCmd 0x04000000 = .error .reservedOpcode ∧ decodeCmd 0xFF000000 = .error .reservedOpcode ∧
      decodeCmd 0x00000008 = .error .reservedBits ∧ decodeCmd 0x02800004 = .error .reservedBits := by decide

/-- R70: too few bytes, and a byte that is no 6-bit index. -/
theorem test_reject_bytes :
    decodeBytes .cmd [0x04, 0x00, 0x00] = .error .tooShort ∧ decodeBytes .step [] = .error .tooShort ∧
      decodeBytes .step [0x40] = .error .stepIndexRange := by decide

/-! ### Decoding -/

/-- R71, R72: the four command words bit by bit, UPDATE at every legal CNT. -/
theorem test_decode_commands :
    List.map decodeCmd
      [0b00000000000000000000000000000000#32, 0b00000001000000000000000000000000#32,
       0b00000010000000000000000000000000#32, 0b00000010000000000000000000000001#32,
       0b00000010000000000000000000000010#32, 0b00000010000000000000000000000011#32,
       0b00000010000000000000000000000100#32, 0b00000011000000000000000000000000#32] =
      [.ok .nop, .ok .init, .ok (.update 0), .ok (.update 1), .ok (.update 2), .ok (.update 3), .ok (.update 4),
       .ok .finalize] := by decide

/-- R79, R81: the 6-bit index of every F-round step, bit by bit. -/
theorem test_decode_steps_f :
    (List.map decodeStep
      [
        0b000000#6, 0b000001#6, 0b000010#6, 0b000011#6, 0b000100#6, 0b000101#6, 0b000110#6, 0b000111#6, 0b001000#6,
        0b001001#6, 0b001010#6, 0b001011#6, 0b001100#6, 0b001101#6, 0b001110#6, 0b001111#6]) =
      [
        .step0, .step1, .step2, .step3, .step4, .step5, .step6, .step7, .step8, .step9, .step10, .step11, .step12,
        .step13, .step14, .step15] := by decide

/-- R79, R81: the 6-bit index of every G-round step, bit by bit. -/
theorem test_decode_steps_g :
    (List.map decodeStep
      [
        0b010000#6, 0b010001#6, 0b010010#6, 0b010011#6, 0b010100#6, 0b010101#6, 0b010110#6, 0b010111#6, 0b011000#6,
        0b011001#6, 0b011010#6, 0b011011#6, 0b011100#6, 0b011101#6, 0b011110#6, 0b011111#6]) =
      [
        .step16, .step17, .step18, .step19, .step20, .step21, .step22, .step23, .step24, .step25, .step26, .step27,
        .step28, .step29, .step30, .step31] := by decide

/-- R79, R81: the 6-bit index of every H-round step, bit by bit. -/
theorem test_decode_steps_h :
    (List.map decodeStep
      [
        0b100000#6, 0b100001#6, 0b100010#6, 0b100011#6, 0b100100#6, 0b100101#6, 0b100110#6, 0b100111#6, 0b101000#6,
        0b101001#6, 0b101010#6, 0b101011#6, 0b101100#6, 0b101101#6, 0b101110#6, 0b101111#6]) =
      [
        .step32, .step33, .step34, .step35, .step36, .step37, .step38, .step39, .step40, .step41, .step42, .step43,
        .step44, .step45, .step46, .step47] := by decide

/-- R79, R81: the 6-bit index of every I-round step, bit by bit. -/
theorem test_decode_steps_i :
    (List.map decodeStep
      [
        0b110000#6, 0b110001#6, 0b110010#6, 0b110011#6, 0b110100#6, 0b110101#6, 0b110110#6, 0b110111#6, 0b111000#6,
        0b111001#6, 0b111010#6, 0b111011#6, 0b111100#6, 0b111101#6, 0b111110#6, 0b111111#6]) =
      [
        .step48, .step49, .step50, .step51, .step52, .step53, .step54, .step55, .step56, .step57, .step58, .step59,
        .step60, .step61, .step62, .step63] := by decide

/-- The opcode table's numbering: a 32-bit row, a 6-bit row in one byte, an illegal word. -/
theorem test_table_words :
    decodeTableWord 32 0x02000004 = some (.update 4) ∧ decodeTableWord 8 0x11 = some .step17 ∧
      decodeTableWord 32 0x04000000 = none := by decide

/-- R53: a command word lies in memory least significant byte first. -/
theorem test_decode_bytes :
    decodeBytes .cmd [0x03, 0x00, 0x00, 0x02, 0xAA] = .ok (.update 3, [0xAA]) := by decide

/-! ### The Word operations, the codec and the step (95_test_vectors.md 2 to 5) -/

/-- V-W1 to V-W3. -/
theorem test_add :
    wAdd 0xFFFFFFFF 0x00000001 = 0x00000000 ∧ wAdd 0x12345678 0x9ABCDEF0 = 0xACF13568 ∧
      wAdd 0x80000000 0x80000001 = 0x00000001 := by decide

/-- V-W4 to V-W8. -/
theorem test_logic :
    wAnd 0xF0F0F0F0 0x3C3C3C3C = 0x30303030 ∧ wOr 0xF0F0F0F0 0x3C3C3C3C = 0xFCFCFCFC ∧
      wXor 0xF0F0F0F0 0x3C3C3C3C = 0xCCCCCCCC ∧ wNot 0x00000000 = 0xFFFFFFFF ∧
      wNot 0x0000FFFF = 0xFFFF0000 := by decide

/-- V-W9 to V-W12. -/
theorem test_shifts :
    wShl 0x87654321 4 = 0x76543210 ∧ wShl 0x87654321 32 = 0x00000000 ∧ wLshr 0x87654321 4 = 0x08765432 ∧
      wLshr 0x87654321 32 = 0x00000000 := by decide

/-- V-W13 to V-W16. -/
theorem test_rotl :
    rotlNat 0x87654321 4 = some 0x76543218 ∧ rotlNat 0x80000000 1 = some 0x00000001 ∧
      rotlNat 0x12345678 0 = some 0x12345678 ∧ rotlNat 0x12345678 32 = none := by decide

/-- V-C1 to V-C3, V-C8, V-C9. -/
theorem test_encode_words :
    encodeWords [0x67452301, 0xEFCDAB89] = [0x01, 0x23, 0x45, 0x67, 0x89, 0xAB, 0xCD, 0xEF] ∧
      encodeWords [] = [] ∧ lengthField 88 = [0x58, 0, 0, 0, 0, 0, 0, 0] ∧
      lengthField 80000 = [0x80, 0x38, 0x01, 0, 0, 0, 0, 0] := by decide

/-- V-C4 to V-C7. -/
theorem test_decode_words :
    decodeWords [0x48, 0x65, 0x6C, 0x6C] = .ok [0x6C6C6548] ∧
      decodeWords [0x80, 0, 0, 0, 0, 0, 0, 0] = .ok [0x00000080, 0x00000000] ∧
      decodeWords [0x01, 0x02, 0x03] = .error (.raised .invalidCodecLength) ∧ decodeWords [] = .ok [] := by decide

/-- V-R1 to V-R4. -/
theorem test_round_functions :
    fnF 0xEFCDAB89 0x98BADCFE 0x10325476 = 0x98BADCFE ∧ fnG 0xEFCDAB89 0x98BADCFE 0x10325476 = 0x88888888 ∧
      fnH 0xEFCDAB89 0x98BADCFE 0x10325476 = 0x67452301 ∧
      fnI 0xEFCDAB89 0x98BADCFE 0x10325476 = 0x77777777 := by decide

/-- V-K1 to V-K5: k(i), s(i), T[i]. -/
theorem test_step_rows :
    List.map (fun i => (msgIndex i, rotAmount i, addConst i)) [0, 15, 17, 33, 63] =
      [(0, 7, 0xD76AA478), (15, 22, 0x49B40821), (6, 9, 0xC040B340), (8, 11, 0x8771F681),
       (9, 21, 0xEB86D391)] := by decide

/-- A transform in progress at step i, on the empty message's block (95_test_vectors.md 4), and one host event waiting. -/
def stepping (i : Fin 64) (a b c d : Word) : State :=
  { State.reset with
    work := ⟨a, b, c, d⟩
    x := #v[0x80, 0, 0, 0, 0, 0, 0, 0, 0, 0, 0, 0, 0, 0, 0, 0]
    seq := some i
    pending := [.write .word 0x04 7] }

/-- V-T1: STEP0 executed, and the index moves on. -/
theorem test_step0 :
    exec .step0 (stepping 0 0x67452301 0xEFCDAB89 0x98BADCFE 0x10325476) =
      .next (stepping 0 0x10325476 0xA5202774 0xEFCDAB89 0x98BADCFE) ∧
    step (stepping 0 0x67452301 0xEFCDAB89 0x98BADCFE 0x10325476) =
      .next (stepping 1 0x10325476 0xA5202774 0xEFCDAB89 0x98BADCFE) := by
  constructor <;> rfl

/-- V-T2. -/
theorem test_step16 :
    exec .step16 (stepping 16 0xF56C7CF1 0xD6819C6A 0x5AA53F75 0x374943A7) =
      .next (stepping 16 0x374943A7 0x1C7D7513 0xD6819C6A 0x5AA53F75) := by rfl

/-- V-T3. -/
theorem test_step32 :
    exec .step32 (stepping 32 0x13707036 0xA2205F1F 0x1C31C384 0xAE7813DB) =
      .next (stepping 32 0xAE7813DB 0xDF63EAA1 0xA2205F1F 0x1C31C384) := by rfl

/-- V-T4. -/
theorem test_step48 :
    exec .step48 (stepping 48 0x3F55EDFD 0xCA7D2DBD 0x68D84EA2 0x22A31F54) =
      .next (stepping 48 0x22A31F54 0x93AA2577 0xCA7D2DBD 0x68D84EA2) := by rfl

/-- V-T5, its last row and the feed-forward: STEP63 and the end of the transform. -/
theorem test_step63 :
    step (stepping 63 0x30130182 0xFF4EA3EB 0x6E10A476 0x7246FAD3) =
      .next
        { stepping 63 0x7246FAD3 0x14E45506 0xFF4EA3EB 0x6E10A476 with
          seq := none
          engine := Engine.reset.setDs ⟨0xD98C1DD4, 0x04B2008F, 0x980980E9, 0x7E42F8EC⟩ } := by rfl

/-- V-B2 and V-B4. -/
theorem test_block :
    blockTransform initialDigestState (List.replicate 64 0x61) =
      .ok ⟨0x89D4FF56, 0x125CD962, 0x69CADE33, 0x0033E325⟩ ∧
    blockTransform initialDigestState (List.replicate 63 0x61) = .error (.raised .invalidBlockLength) := by
  decide +kernel

/-! ### The engine and the commands (95_test_vectors.md 1, 6 to 8) -/

/-- V-P1 to V-P9: the fill level of n bytes and its padding length. -/
theorem test_padding :
    List.map (fun n => (n % 64, padLen (n % 64))) [0, 11, 55, 56, 57, 63, 64, 119, 10000] =
      [(0, 56), (11, 45), (55, 1), (56, 64), (57, 63), (63, 57), (0, 56), (55, 1), (16, 40)] := by decide

/-- V-S1, and V-S2 ("Hello World"), as hexadecimal digests. -/
theorem test_known_digests :
    (hashMessage []).map hexDigest = .ok "d41d8cd98f00b204e9800998ecf8427e" ∧
    (hashMessage [0x48, 0x65, 0x6C, 0x6C, 0x6F, 0x20, 0x57, 0x6F, 0x72, 0x6C, 0x64]).map hexDigest =
      .ok "b10a8db164e0754105b7a99be72e3fe5" := by
  decide +kernel

/-- V-F2: 56 bytes, finalized in two blocks. -/
theorem test_two_block_finalize :
    (hashMessage (List.replicate 56 0x61)).map hexDigest = .ok "3b0c8ac703f828b04c6c197006d17218" := by
  decide +kernel

/-- V-E5: the buffer is completed, one direct chunk, a tail of 12 bytes. -/
theorem test_buffered_update :
    ((update Engine.reset (List.replicate 10 0x00)).bind fun e =>
        update e ((List.range 130).map (BitVec.ofNat 8))).map
      (fun e => (e.cnt, e.ds, e.pendingBytes)) =
      .ok (1120, ⟨0xB2F11165, 0xB7D43DC7, 0x29079743, 0xCC9B9B72⟩,
        [0x76, 0x77, 0x78, 0x79, 0x7A, 0x7B, 0x7C, 0x7D, 0x7E, 0x7F, 0x80, 0x81]) := by
  decide +kernel

/-- The machine after reset with an engine of another phase, error code and count, and these events waiting. -/
def at_ (phase : Phase) (errcode : BitVec 4) (cnt : Counter) (evs : List HostEvent) : State :=
  { State.reset with
    pending := evs
    engine := { Engine.reset with phase := phase, errcode := errcode, cnt := cnt, data := 0xAABB6261 } }

/-- What an outcome leaves in view, if it is a next state. -/
def seen {α : Type} (o : Host.Outcome State Fault Refusal) (f : State → α) : Option α :=
  match o with
  | .next s => some (f s)
  | .fault _ => none
  | .refused _ => none

/-- V-D1. -/
theorem test_nop : step ((at_ .done 0 8 []).withFetchWord 32 0x00000000) = .next (at_ .done 0 8 []) := by rfl

/-- V-D2: INIT from the error phase. -/
theorem test_init :
    step ((at_ .error 3 8 []).withFetchWord 32 0x01000000) = .next State.reset := by rfl

/-- V-A7: two lanes are absorbed, the others ignored. -/
theorem test_update :
    seen (step ((at_ .active 0 0 []).withFetchWord 32 0x02000002))
        (fun s => (s.engine.cnt, s.engine.pendingBytes, s.engine.ds)) =
      some (16, [0x61, 0x62], initialDigestState) := by decide

/-- V-E7 through UPDATE 1 (0x61 in the lane): the counter wraps, and under the other policy the step is refused. -/
theorem test_update_wrap :
    seen (step ((at_ .active 0 0xFFFFFFFFFFFFFFF8 []).withFetchWord 32 0x02000001)) (fun s => s.engine.cnt) =
      some 0 ∧
    exec (.update 1) { at_ .active 0 0xFFFFFFFFFFFFFFF8 [] with params := ⟨.refuse, .refuse⟩ } =
      .refused .lengthOverflow := by
  constructor <;> rfl

/-- V-S1 in the registers: FINALIZE right after reset. -/
theorem test_finalize :
    seen (step (State.reset.withFetchWord 32 0x03000000)) (fun s => (s.engine.digest, statusWord s.engine)) =
      some (#v[0xD98C1DD4, 0x04B2008F, 0x980980E9, 0x7E42F8EC], 0x00000002) := by
  decide +kernel

/-- V-D3, V-D6 in DONE, and V-D5 there: code 4 before code 3. -/
theorem test_errors_in_done :
    seen (exec (.update 0) (at_ .done 0 8 [])) (fun s => statusWord s.engine) = some 0x00000034 ∧
    seen (exec .finalize (at_ .done 0 8 [])) (fun s => statusWord s.engine) = some 0x00000034 ∧
    seen (step ((at_ .done 0 8 []).withFetchWord 32 0x02000005)) (fun s => statusWord s.engine) =
      some 0x00000044 := by
  decide

/-- V-D7 and V-D8 in ERROR: an illegal word is ignored there. -/
theorem test_errors_kept :
    step ((at_ .error 3 8 []).withFetchWord 32 0x05000000) = .next (at_ .error 3 8 []) ∧
    step ((at_ .error 3 8 []).withFetchWord 32 0x01000001) = .next (at_ .error 3 8 []) := by
  constructor <;> rfl

/-- V-A3 to V-A6: DATA reads back, CMD and 0x0C read 0, a write to STATUS is ignored. -/
theorem test_accesses :
    seen (stepMany 6 (at_ .active 0 0 [.write .word 0x04 0xDEADBEEF, .read .word 0x04, .read .word 0x00,
        .write .word 0x08 0xFFFFFFFF, .read .word 0x08, .read .word 0x0C])) (fun s => s.reads) =
      some [0xDEADBEEF, 0, 0, 0] := by
  decide

/-- Program P2: "Hello World" in three chunks, host access by host access. -/
theorem test_program_p2 :
    seen (serveAll (lineEvents [.init, .update 4 0x6C6C6548, .update 4 0x6F57206F, .update 3 0x00646C72, .finalize,
        .rd 0x08, .rd 0x10, .rd 0x14, .rd 0x18, .rd 0x1C]) State.reset) (fun s => s.reads) =
      some [0x00000002, 0xB18D0AB1, 0x4175E064, 0x9BA9B705, 0xE53F2EE7] := by
  decide +kernel

/-- R83: the expansion of UPDATEB on five bytes. -/
theorem test_updateb :
    updateB [0x48, 0x65, 0x6C, 0x6C, 0x6F] = [.update 4 0x6C6C6548, .update 1 0x0000006F] := by decide

/-! ### Witnesses: for every statement with hypotheses, a state and operands that meet them, clause by clause -/

/-- NopChangesNothing: words of OPC 0 with the lowest CNT bit, and with every RSV and CNT bit. -/
theorem witness_nop_words :
    (0x00000001 : Word).toNat / 2 ^ 24 = 0 ∧ (0x00000001 : Word) ≠ 0x00000000 ∧
      (0x00FFFFFF : Word).toNat / 2 ^ 24 = 0 ∧ (0x00FFFFFF : Word) ≠ 0x00000000 := by decide

/-- ResetInputHasTheEffectOfInit. -/
theorem witness_reset_input :
    (at_ .error 4 8 [.reset]).seq = none ∧ (at_ .error 4 8 [.reset]).pending = .reset :: [] := by decide

/-- UpdateAbsorbsTheLanesOfData: 60 + 3 bytes stay pending, 60 + 4 complete a block; CNT at 0 and 4; the count just below
2^64, and at the wrap. -/
theorem witness_update_absorbs :
    (at_ .active 0 480 []).engine.phase = .active ∧ (at_ .active 0 480 []).engine.pendingBytes.length + 3 = 63 ∧
      (at_ .active 0 480 []).engine.pendingBytes.length + 4 = 64 ∧ (0 : BitVec 3).toNat ≤ 4 ∧
      (4 : BitVec 3).toNat ≤ 4 ∧ (0xFFFFFFFFFFFFFFD8 : Counter).toNat + 8 * (4 : BitVec 3).toNat < 2 ^ 64 ∧
      ¬ (0xFFFFFFFFFFFFFFE0 : Counter).toNat + 8 * (4 : BitVec 3).toNat < 2 ^ 64 ∧
      (at_ .active 0 0xFFFFFFFFFFFFFFE0 []).params.lengthOverflow = .wrap := by
  refine ⟨rfl, ?_, ?_, ?_⟩
  · rw [pendingBytes_length]; decide
  · rw [pendingBytes_length]; decide
  · decide

/-- UpdateStoresOnlyItsBytes: in ACTIVE with CNT 4 and with CNT 5, and in DONE. -/
theorem witness_update_frame :
    (∃ t, exec (.update 4) (at_ .active 0 0 []) = .next t) ∧
      (∃ t, exec (.update 5) (at_ .active 0 0 []) = .next t) ∧ 4 < (5 : BitVec 3).toNat ∧
      (∃ t, exec (.update 4) (at_ .done 0 0 []) = .next t) ∧ (at_ .done 0 0 []).engine.phase ≠ .active ∧
      ∀ m, m < (4 : BitVec 3).toNat → 4 ≠ (fillLevel (0 : Counter) + m) % 64 :=
  ⟨⟨_, rfl⟩, ⟨_, rfl⟩, by decide, ⟨_, rfl⟩, by decide, by decide⟩

/-- EmptyUpdateIsANoOp. -/
theorem witness_empty_update : (at_ .active 0 8 []).engine.phase = .active := rfl

/-- FinalizePadsAndPublishesTheDigest: fill levels 55 and 56. -/
theorem witness_finalize :
    (at_ .active 0 440 []).engine.phase = .active ∧ fillLevel (at_ .active 0 440 []).engine.cnt = 55 ∧
      fillLevel (at_ .active 0 448 []).engine.cnt = 56 := by decide

/-- FinalizeStoresOnlyItsTrailer: in ACTIVE and in DONE; at fill level 55 the trailer leaves offset 54 alone. -/
theorem witness_finalize_frame :
    (∃ t, exec .finalize (at_ .active 0 440 []) = .next t) ∧ (∃ t, exec .finalize (at_ .done 0 440 []) = .next t) ∧
      ∀ m, m < padLen (fillLevel (440 : Counter)) + 8 → 54 ≠ (fillLevel (440 : Counter) + m) % 64 :=
  ⟨(execFinalize_active (s := at_ .active 0 440 []) rfl).elim fun _ h => ⟨_, h.1⟩, ⟨_, rfl⟩, by decide⟩

/-- LengthOverflowFollowsThePolicy: one byte takes the count to exactly 2^64; both policies. -/
theorem witness_length_overflow :
    (at_ .active 0 0xFFFFFFFFFFFFFFF8 []).engine.phase = .active ∧
      2 ^ 64 ≤ (0xFFFFFFFFFFFFFFF8 : Counter).toNat + 8 * (1 : BitVec 3).toNat ∧
      (at_ .active 0 0xFFFFFFFFFFFFFFF8 []).params.lengthOverflow = .wrap ∧
      ({ at_ .active 0 0xFFFFFFFFFFFFFFF8 [] with params := ⟨.refuse, .refuse⟩ } : State).params.lengthOverflow =
        .refuse := by decide

/-- UseAfterFinalizeIsRaisedInDone. -/
theorem witness_use_after_finalize : (at_ .done 0 8 []).engine.phase = .done ∧ (0 : BitVec 3).toNat ≤ 4 := by decide

/-- IllegalWordRaisesIllegalCommand: RSV at both its ends, OPC 4, CNT 5 with UPDATE, CNT 1 with INIT; not in ERROR, and in
ERROR. -/
theorem witness_illegal_word :
    (at_ .active 0 8 [.write .word 0x00 0x00000008]).pending = .write .word 0x00 0x00000008 :: [] ∧
      (at_ .active 0 8 [.write .word 0x00 0x00000008]).seq = none ∧
      (0x00000008 : Word).toNat / 2 ^ 3 % 2 ^ 21 ≠ 0 ∧ (0x00800000 : Word).toNat / 2 ^ 3 % 2 ^ 21 ≠ 0 ∧
      3 < (0x04000000 : Word).toNat / 2 ^ 24 ∧
      ((0x02000005 : Word).toNat / 2 ^ 24 = 2 ∧ 4 < (0x02000005 : Word).toNat % 2 ^ 3) ∧
      ((0x01000001 : Word).toNat / 2 ^ 24 ≠ 2 ∧ (0x01000001 : Word).toNat % 2 ^ 3 ≠ 0) ∧
      (at_ .active 0 8 []).engine.phase ≠ .error ∧ (at_ .error 3 8 []).engine.phase = .error := by decide

/-- ErrorPhaseIgnoresEveryCommandButInit: a legal and an illegal word. -/
theorem witness_error_phase :
    (at_ .error 3 8 [.write .word 0x00 0x03000000]).pending = .write .word 0x00 0x03000000 :: [] ∧
      (at_ .error 3 8 [.write .word 0x00 0x03000000]).seq = none ∧ (at_ .error 3 8 []).engine.phase = .error ∧
      (0x03000000 : Word) ≠ 0x01000000 ∧ (0x01000001 : Word) ≠ 0x01000000 := by decide

/-- OnlyInitOrResetLeavesTheErrorPhase: both ways out, and a step that stays. -/
theorem witness_leave_error :
    (∃ t, step (at_ .error 3 8 [.write .word 0x00 0x01000000]) = .next t ∧ t.engine.phase ≠ .error) ∧
      (at_ .error 3 8 [.write .word 0x00 0x01000000]).NextReinit ∧
      (∃ t, step (at_ .error 3 8 [.reset]) = .next t ∧ t.engine.phase ≠ .error) ∧
      (at_ .error 3 8 [.reset]).NextReinit ∧ (∃ t, step (at_ .error 3 8 []) = .next t ∧ t.engine.phase = .error) ∧
      (at_ .error 3 8 []).engine.phase = .error :=
  ⟨⟨_, rfl, by decide⟩, Or.inl ⟨rfl, rfl⟩, ⟨_, rfl, by decide⟩, Or.inr ⟨rfl, rfl⟩, ⟨_, rfl, rfl⟩, rfl⟩

/-- InternalFaultsAreUnreachable: states that hold the codes 1 and 2 already. -/
theorem witness_internal_codes :
    step (at_ .error 1 8 []) = .next (at_ .error 1 8 []) ∧ (at_ .error 1 8 []).engine.errcode = 1 ∧
      step (at_ .error 2 8 []) = .next (at_ .error 2 8 []) ∧ (at_ .error 2 8 []).engine.errcode = 2 := by
  refine ⟨rfl, rfl, rfl, rfl⟩

/-- DecodeOfEncodeIsTheInstruction. -/
theorem witness_well_formed : (Instr.update 4).wellFormed = true ∧ Instr.step63.wellFormed = true := by decide

/-- EncodeOfDecodeIsTheBytes: both forms. -/
theorem witness_decode_bytes :
    decodeBytes .cmd [0x04, 0x00, 0x00, 0x02, 0x05] = .ok (.update 4, [0x05]) ∧
      decodeBytes .step [0x3F, 0x40] = .ok (.step63, [0x40]) := by decide

/-- MessageIndexFollowsItsFormula: a step at each end of each round. -/
theorem witness_rounds :
    List.map (fun i : Fin 64 => i.val / 16) [0, 15, 16, 31, 32, 47, 48, 63] = [0, 0, 1, 1, 2, 2, 3, 3] := by decide

/-- WordOperationsAreUnsignedArithmetic: both sides of the domain of rotl. -/
theorem witness_rotl_domain : 31 < 32 ∧ ¬ 32 < 32 ∧ 32 ≤ 32 := by decide

/-- NonlinearFunctionsBitByBit: the highest bit. -/
theorem witness_bit : 31 < 32 := by decide

/-- The round statements: each table has its first and its last row. -/
theorem witness_step_rows :
    ⟨.step0, 0, 0, 7, 0xD76AA478⟩ ∈ Spec.tableF ∧ ⟨.step15, 15, 15, 22, 0x49B40821⟩ ∈ Spec.tableF ∧
      ⟨.step16, 16, 1, 5, 0xF61E2562⟩ ∈ Spec.tableG ∧ ⟨.step31, 31, 12, 20, 0x8D2A4C8A⟩ ∈ Spec.tableG ∧
      ⟨.step32, 32, 5, 4, 0xFFFA3942⟩ ∈ Spec.tableH ∧ ⟨.step47, 47, 2, 23, 0xC4AC5665⟩ ∈ Spec.tableH ∧
      ⟨.step48, 48, 0, 6, 0xF4292244⟩ ∈ Spec.tableI ∧ ⟨.step63, 63, 9, 21, 0xEB86D391⟩ ∈ Spec.tableI := by
  simp [Spec.tableF, Spec.tableG, Spec.tableH, Spec.tableI]

/-- BlockTransformIsTheSixtyFourSteps and BlockTransformRaisesOnAnotherLength: 64 bytes, and 63 and 65. -/
theorem witness_block_length :
    (List.replicate 64 (0x61 : Byte)).length = 64 ∧ (List.replicate 63 (0x61 : Byte)).length ≠ 64 ∧
      (List.replicate 65 (0x61 : Byte)).length ≠ 64 := by decide

/-- SixtyFourMachineStepsCompleteATransform: a transform that begins, with a host event waiting. -/
theorem witness_begin_transform :
    ∃ t0, (at_ .active 0 0 [.read .word 0x08]).beginTransform (List.replicate 64 0x61) = .ok t0 := ⟨_, rfl⟩

/-- EncodeOfDecodedBytesIsTheBytes and DecodedWordsAreLittleEndian: lengths 0 and 4, and 3. -/
theorem witness_codec_lengths :
    ([] : List Byte).length % 4 = 0 ∧ ([0x48, 0x65, 0x6C, 0x6C] : List Byte).length % 4 = 0 ∧
      ([0x01, 0x02, 0x03] : List Byte).length % 4 ≠ 0 := by decide

/-- DigestBytesAreTheLanesOfDigest: the last byte. -/
theorem witness_digest_byte : 3 < 4 ∧ (digestBytes initialDigestState)[4 * 3 + 3]? = some 0x10 := by decide

/-- PaddingLengthFollowsItsFormula: the last fill level. -/
theorem witness_fill_level : 63 < 64 := by decide

/-- EngineShowsTheHostsSession: each of the three sessions, and an event served in it. -/
theorem witness_session :
    (Engine.reset.Shows (.absorbing []) ∧ ∃ t, serve (.write .word 0x00 0x02000004) State.reset = .next t) ∧
      (∃ e : Engine, e.Shows (.finished [])) ∧
      ((at_ .error 3 8 []).engine.Shows (.failed .useAfterFinalize) ∧
        ∃ t, serve .reset (at_ .error 3 8 []) = .next t) := by
  exact ⟨⟨⟨rfl, rfl, rfl, rfl, rfl⟩, ⟨_, rfl⟩⟩,
    ⟨{ Engine.reset with
        phase := .done
        digest := #v[(oneShot []).a, (oneShot []).b, (oneShot []).c, (oneShot []).d] }, rfl, rfl, rfl⟩,
    ⟨rfl, rfl⟩, ⟨_, rfl⟩⟩

/-- HashPseudoInstructionDigestsItsBytes: the policy wrap, and the policy refuse with a short message. -/
theorem witness_hash_policies :
    State.reset.params.lengthOverflow = .wrap ∧
      ({ State.reset with params := ⟨.refuse, .refuse⟩ } : State).params.lengthOverflow = .refuse ∧
      8 * ([0x61] : List Byte).length < 2 ^ 64 := by decide

/-- StatusOfAReachableStateIsOneOfFour and EveryStepKeepsTheInvariant: a state of the invariant in each phase, and a
step from it. -/
theorem witness_invariant :
    (at_ .active 0 8 [.read .word 0x08]).Inv ∧
      ({ at_ .done 0 8 [] with
          engine :=
            { Engine.reset with
              phase := .done
              digest := #v[0x67452301, 0xEFCDAB89, 0x98BADCFE, 0x10325476] } } : State).Inv ∧
      (at_ .error 3 8 []).Inv ∧ ∃ t, step (at_ .active 0 8 [.read .word 0x08]) = .next t := by
  refine ⟨⟨⟨?_, ?_, ?_, ?_, ?_, ?_⟩, ?_⟩, ⟨⟨?_, ?_, ?_, ?_, ?_, ?_⟩, ?_⟩, ⟨⟨?_, ?_, ?_, ?_, ?_, ?_⟩, ?_⟩, ⟨_, rfl⟩⟩ <;>
    decide

/-- ReadsReturnTheRegisterAndChangeNothing: RD DIGEST0 with RD DIGEST1 after it, and two reads of DIGEST3. -/
theorem witness_reads :
    (at_ .done 0 8 [.read .word 0x10, .read .word 0x14]).seq = none ∧
      (at_ .done 0 8 [.read .word 0x10, .read .word 0x14]).pending = .read .word 0x10 :: [.read .word 0x14] ∧
      (at_ .done 0 8 [.read .word 0x1C, .read .word 0x1C]).seq = none ∧
      (at_ .done 0 8 [.read .word 0x1C, .read .word 0x1C]).pending =
        .read .word 0x1C :: .read .word 0x1C :: [] := by decide

/-- UnmappedAndReadOnlyAccessesAreQuiet and DataWriteSetsDataAlone: one event of each kind waiting. -/
theorem witness_quiet_accesses :
    (at_ .active 0 8 [.read .word 0x0C]).pending = .read .word 0x0C :: [] ∧
      (at_ .active 0 8 [.read .word 0x00]).pending = .read .word 0x00 :: [] ∧
      (at_ .active 0 8 [.write .word 0x1C 5]).pending = .write .word 0x1C 5 :: [] ∧
      (at_ .active 0 8 [.write .word 0x08 5]).pending = .write .word 0x08 5 :: [] ∧
      (at_ .active 0 8 [.write .word 0x04 5]).pending = .write .word 0x04 5 :: [] ∧
      (at_ .active 0 8 [.write .word 0x04 5]).seq = none := by decide

/-- SubwordAndMisalignedAccessesAreRefused: a halfword write, and a 32-bit read at address 3. -/
theorem witness_subword :
    (at_ .active 0 8 [.write .half 0x04 5]).pending = .write .half 0x04 5 :: [] ∧ Width.half ≠ .word ∧
      (at_ .active 0 8 [.read .word 0x03]).pending = .read .word 0x03 :: [] ∧
      (at_ .active 0 8 [.read .word 0x03]).seq = none ∧ (0x03 : BitVec 5).toNat % 4 ≠ 0 := by decide

/-- CommandStepRunsTheDecodedInstruction. -/
theorem witness_command_step :
    decode (.cmd 0x02000004) = .ok (.update 4) ∧ (at_ .active 0 8 [.write .word 0x00 0x02000004]).seq = none ∧
      (at_ .active 0 8 [.write .word 0x00 0x02000004]).pending = .write .word 0x00 0x02000004 :: [] := by decide

/-- TransformStepRunsTheDecodedInstruction: the first step, the last that has a step after it, and the last. -/
theorem witness_transform_step :
    ((stepping 0 1 2 3 4).seq = some 0 ∧ decode (.step (BitVec.ofNat 6 0)) = .ok .step0 ∧
        ∃ t, exec .step0 (stepping 0 1 2 3 4) = .next t) ∧
      ((stepping 62 1 2 3 4).seq = some 62 ∧ decode (.step (BitVec.ofNat 6 62)) = .ok .step62 ∧ 62 + 1 < 64 ∧
        ∃ t, exec .step62 (stepping 62 1 2 3 4) = .next t) ∧
      ((stepping 63 1 2 3 4).seq = some 63 ∧ decode (.step (BitVec.ofNat 6 63)) = .ok .step63 ∧
        ∃ t, exec .step63 (stepping 63 1 2 3 4) = .next t) :=
  ⟨⟨rfl, rfl, _, rfl⟩, ⟨rfl, rfl, by decide, _, rfl⟩, ⟨rfl, rfl, _, rfl⟩⟩

/-- IdleMachineHoldsAllState. -/
theorem witness_idle : State.reset.seq = none ∧ State.reset.pending = [] := by decide

/-- AccessesTakeEffectInOrder: two accesses, and a third after them. -/
theorem witness_in_order :
    (at_ .active 0 8 [.write .word 0x04 5, .read .word 0x04, .reset]).pending =
        [.write .word 0x04 5, .read .word 0x04] ++ [.reset] ∧
      (at_ .active 0 8 [.write .word 0x04 5, .read .word 0x04, .reset]).seq = none := by decide

/-- The machine after reset with these bytes in the buffer. -/
def stateWithBuf (m : Memory) : State := { State.reset with engine := Engine.reset.setBuf m }

/-- EveryFieldHasItsWriters: for every field a step that changes it, and a host read. -/
theorem witness_writers :
    (∃ t, step (at_ .active 0 8 [.write .word 0x04 5]) = .next t ∧
        t.engine.data ≠ (at_ .active 0 8 []).engine.data) ∧
      (∃ t, step { at_ .done 0 8 [.reset] with engine := Engine.reset.setDigest #v[1, 2, 3, 4] } = .next t ∧
        t.engine.digest ≠ #v[1, 2, 3, 4]) ∧
      (∃ t, step (at_ .active 0 0 [.write .word 0x00 0x02000004]) = .next t ∧ t.engine.cnt ≠ 0) ∧
      (∃ t, step ((stateWithBuf [(0, 1)]).withFetchWord 32 0x02000001) = .next t ∧
        t.engine.buf.byteAt 0 ≠ (stateWithBuf [(0, 1)]).engine.buf.byteAt 0) ∧
      (∃ t, step (stepping 63 1 2 3 4) = .next t ∧ t.engine.ds ≠ (stepping 63 1 2 3 4).engine.ds) ∧
      (∃ t, step (at_ .done 0 8 [.write .word 0x00 0x03000000]) = .next t ∧ t.engine.phase ≠ .done ∧
        t.engine.errcode ≠ 0) ∧
      (at_ .done 0 8 [.read .word 0x1C]).NextIs (.read .word 0x1C) ∧
      ∃ t, step (at_ .done 0 8 [.read .word 0x1C]) = .next t := by
  refine ⟨⟨_, rfl, ?_⟩, ⟨_, rfl, ?_⟩, ⟨_, rfl, ?_⟩, ⟨_, rfl, ?_⟩, ⟨_, rfl, ?_⟩, ⟨_, rfl, ?_⟩, ⟨rfl, rfl⟩, ⟨_, rfl⟩⟩ <;>
    decide

/-- StaleBytesAreUnobservable: two machines whose buffers differ at an offset above the fill level. -/
theorem witness_stale :
    (stateWithBuf [(5, 1)]).SameButStale (stateWithBuf [(5, 2)]) := by
  refine ⟨⟨?_, ?_, ?_, ?_, ?_, ?_, ?_⟩, ?_, ?_, ?_, ?_, ?_, ?_⟩ <;> rfl

end Sys2Proof.Tests
end

/-! PROOFS. The statements about the state: what a step writes, the invariant of a run, and stale bytes. -/

namespace Sys2Proof.Machine

/-! ### What a step writes to the engine -/

/-- update keeps the buffer's canonical form (20_memory.md R51). -/
theorem update_wf {e e' : Engine} {input : List Byte} (h : update e input = .ok e') (hwf : e.buf.wf = true) :
    e'.buf.wf = true := by
  obtain ⟨buf, hu, -, -, hbuf⟩ := update_spec e input
  cases hu.symm.trans h
  exact hbuf hwf

/-- finalize keeps the buffer's canonical form. -/
theorem finalize_wf {e e' : Engine} {d : List Byte} (h : finalize e = .ok (e', d)) (hwf : e.buf.wf = true) :
    e'.buf.wf = true := by
  obtain ⟨buf, hf, -, -, -, hbuf⟩ := finalize_spec e
  cases hf.symm.trans h
  exact hbuf hwf

/-- What one step can write to the engine, and which step writes it (10_state.md R38): `StepEffect s e` when `e` is an
engine that the next step of `s` can leave. -/
inductive StepEffect (s : State) : Engine → Prop where
  | unchanged : StepEffect s s.engine
  | dataWritten (v : Word) (next : s.NextIs (.write .word 0x04 v)) : StepEffect s (s.engine.setData v)
  | reinitialised (next : s.NextReinit) : StepEffect s s.engine.reinit
  | raised (w : Word) (k : ErrorKind) (next : s.NextCommand w) (code : k.code = 3 ∨ k.code = 4) :
      StepEffect s (s.engine.raise k)
  | absorbed (bytes : List Byte) (buf : Memory) (next : s.NextUpdate) (active : s.engine.phase = .active)
      (done : update s.engine bytes = .ok (updated s.engine bytes buf)) :
      StepEffect s (updated s.engine bytes buf)
  | finalized (buf : Memory) (d : List Byte) (next : s.NextCommand 0x03000000)
      (active : s.engine.phase = .active)
      (done : finalize s.engine = .ok (updated s.engine (trailer s.engine) buf, d)) :
      StepEffect s (updated s.engine (trailer s.engine) buf).publish
  | fedForward (q : Quad) (last : s.seq = some 63) : StepEffect s (s.engine.setDs q)

/-- A command writes the engine and nothing else of the machine. -/
theorem commandWrite_frame {w : Word} {s t : State} (h : commandWrite w s = .next t) :
    t = s.setEngine t.engine := by
  rcases commandWrite_cases w s with hc | ⟨-, hc⟩ | ⟨-, -, hc | ⟨-, hc⟩⟩ |
      ⟨-, _, -, -, ⟨_, -, hc⟩ | ⟨-, -, hc⟩⟩ | ⟨-, -, _, -, hc⟩ <;>
    cases hc.symm.trans h <;> rfl

/-- A command that is the next access has one of the effects a step can have. -/
theorem commandWrite_effect {w : Word} {s t : State} {rest : List HostEvent} (hn : s.NextCommand w)
    (h : commandWrite w (s.setPending rest) = .next t) : StepEffect s t.engine := by
  rcases commandWrite_cases w (s.setPending rest) with hc | ⟨rfl, hc⟩ | ⟨-, -, hc | ⟨-, hc⟩⟩ |
      ⟨hp, cnt, hle, rfl, ⟨buf, hu, hc⟩ | ⟨-, -, hc⟩⟩ | ⟨hp, rfl, buf, hf, hc⟩ <;>
    cases hc.symm.trans h
  · exact .unchanged
  · exact .reinitialised (.inl hn)
  · exact .raised w .illegalCommand hn (.inr rfl)
  · exact .raised w .useAfterFinalize hn (.inl rfl)
  · exact .absorbed _ buf ⟨cnt, hle, hn⟩ hp hu
  · exact .finalized buf _ hn hp hf

/-- Only the step of index 63 writes the engine, and only its DigestState (42_transform.md R144). -/
theorem sequence_engine (s : State) (i : Fin 64) :
    (s.sequence i).engine = if i = 63 then s.engine.setDs (s.engine.ds.add s.work) else s.engine := by
  have hlast : i = 63 ↔ ¬ i.val + 1 < 64 := by omega
  unfold State.sequence
  split <;> simp_all

/-- Every step that answers a next state has one of the effects on the engine. -/
theorem step_effect {s t : State} (h : step s = .next t) : StepEffect s t.engine := by
  rcases step_inv h with ⟨i, hi, rfl⟩ | ⟨-, -, rfl⟩ | ⟨ev, rest, hs, hp, hserve⟩
  · rw [sequence_engine]
    split
    · next hlast => exact .fedForward _ (hlast ▸ hi)
    · exact .unchanged
  · exact .unchanged
  · have hn := nextIs_of_pending hs hp
    rcases serve_inv hserve with ⟨w, rfl, hc⟩ | ⟨v, rfl, rfl⟩ | ⟨a, v, rfl, -, -, rfl⟩ | ⟨a, rfl, rfl⟩ | ⟨rfl, rfl⟩
    · exact commandWrite_effect hn hc
    · exact .dataWritten v hn
    · exact .unchanged
    · exact .unchanged
    · exact .reinitialised (.inr hn)

/-- No step writes the OPEN parameters (00_scope.md R7). -/
theorem step_params {s t : State} (h : step s = .next t) : t.params = s.params := by
  rcases step_inv h with ⟨i, -, rfl⟩ | ⟨-, -, rfl⟩ | ⟨ev, rest, -, -, hserve⟩
  · exact (sequence_frame _ i).2
  · rfl
  · rcases serve_inv hserve with ⟨w, -, hc⟩ | ⟨v, -, rfl⟩ | ⟨a, v, -, -, -, rfl⟩ | ⟨a, -, rfl⟩ | ⟨-, rfl⟩
    · rw [commandWrite_frame hc]; rfl
    all_goals rfl

/-- No step begins a transform, and one that leaves a transform in progress leaves the phase (10_state.md R28). -/
theorem step_seq {s t : State} (h : step s = .next t) (ht : t.seq ≠ none) :
    s.seq ≠ none ∧ t.engine.phase = s.engine.phase := by
  rcases step_inv h with ⟨i, hi, rfl⟩ | ⟨-, -, rfl⟩ | ⟨ev, rest, hs, -, hserve⟩
  · rw [(sequence_frame _ i).1]
    exact ⟨by simp [hi], rfl⟩
  · exact ⟨ht, rfl⟩
  · refine absurd ?_ ht
    rcases serve_inv hserve with ⟨w, -, hc⟩ | ⟨v, -, rfl⟩ | ⟨a, v, -, -, -, rfl⟩ | ⟨a, -, rfl⟩ | ⟨-, rfl⟩
    · rw [commandWrite_frame hc]; exact hs
    · exact hs
    · exact hs
    · exact hs
    · rfl

/-! ### The invariant of a run -/

theorem Engine.Inv.reinit {e : Engine} (h : e.Inv) : e.reinit.Inv where
  buf_wf := h.buf_wf
  cnt_bytes := rfl
  error_iff := by simp [Engine.reinit]
  code_range := .inl rfl
  digest_active _ := rfl
  digest_done := nofun

theorem Engine.Inv.setData {e : Engine} (h : e.Inv) (v : Word) : (e.setData v).Inv :=
  { h with }

/-- Error entry with a code that is not internal keeps the invariant (60_exceptions.md R221, R224). -/
theorem Engine.Inv.raise {e : Engine} (h : e.Inv) {k : ErrorKind} (hk : k.code = 3 ∨ k.code = 4) :
    (e.raise k).Inv where
  buf_wf := h.buf_wf
  cnt_bytes := h.cnt_bytes
  error_iff := iff_of_true rfl (by rcases hk with hk | hk <;> simp [Engine.raise, hk])
  code_range := .inr hk
  digest_active := nofun
  digest_done := nofun

/-- In ACTIVE the DigestState is free: DIGEST shows it only after FINALIZE (10_state.md R33). -/
theorem Engine.Inv.setDs {e : Engine} (h : e.Inv) (hp : e.phase = .active) (q : Quad) : (e.setDs q).Inv :=
  { h with digest_done := fun hd => nomatch hp.symm.trans hd }

/-- Whole bytes absorbed in ACTIVE keep the invariant (43_engine.md R161, R164). -/
theorem Engine.Inv.updated {e : Engine} (h : e.Inv) (hp : e.phase = .active) (input : List Byte) {buf : Memory}
    (hbuf : buf.wf = true) : (Machine.updated e input buf).Inv :=
  { h with
    buf_wf := hbuf
    cnt_bytes := by
      have := h.cnt_bytes
      simp only [Machine.updated, advanceCounter_toNat]
      omega
    digest_done := fun hd => nomatch hp.symm.trans hd }

/-- FINALIZE's last write, DIGEST and the phase, keeps the invariant (44_commands.md R194). -/
theorem Engine.Inv.publish {e : Engine} (h : e.Inv) (hp : e.phase = .active) : e.publish.Inv where
  buf_wf := h.buf_wf
  cnt_bytes := h.cnt_bytes
  error_iff := by
    have := h.error_iff
    simpa [Engine.publish, hp] using this
  code_range := h.code_range
  digest_active := nofun
  digest_done _ := rfl

theorem Engine.Inv.reset : Engine.reset.Inv where
  buf_wf := rfl
  cnt_bytes := rfl
  error_iff := by simp [Engine.reset]
  code_range := .inl rfl
  digest_active _ := rfl
  digest_done := nofun

/-- Settles O54: no transform is in progress after reset, and the engine's fields are read off. -/
theorem resetMeetsTheInvariant : Obligations.ResetMeetsTheInvariant :=
  ⟨Engine.Inv.reset, fun h => absurd rfl h⟩

/-- Every effect of a step keeps the engine's invariant. -/
theorem StepEffect.inv {s : State} {e : Engine} (h : s.Inv) (he : StepEffect s e) : e.Inv := by
  cases he with
  | unchanged => exact h.engine
  | dataWritten v => exact h.engine.setData v
  | reinitialised => exact h.engine.reinit
  | raised w k _ code => exact h.engine.raise code
  | absorbed bytes buf _ active done => exact h.engine.updated active bytes (update_wf done h.engine.buf_wf)
  | finalized buf d _ active done =>
    exact (h.engine.updated active _ (finalize_wf done h.engine.buf_wf)).publish active
  | fedForward q last => exact h.engine.setDs (h.seq_active (by simp [last])) q

/-- Settles O55: every effect a step can have on the engine keeps the engine's invariant, and a transform that is in
progress after the step was so before it. -/
theorem everyStepKeepsTheInvariant : Obligations.EveryStepKeepsTheInvariant := by
  intro s t hinv h
  refine ⟨(step_effect h).inv hinv, fun ht => ?_⟩
  obtain ⟨hs, hp⟩ := step_seq h ht
  exact hp.trans (hinv.seq_active hs)

/-! ### Who writes which field -/

/-- A host read writes nothing of the engine (20_memory.md R60). -/
theorem step_read_engine {s t : State} {addr : BitVec 5} (hn : s.NextIs (.read .word addr))
    (h : step s = .next t) : t.engine = s.engine := by
  obtain ⟨hs, hp⟩ := hn
  obtain ⟨rest, hp⟩ := List.head?_eq_some_iff.mp hp
  rw [step_event hs hp] at h
  rcases serve_inv h with ⟨w, hev, -⟩ | ⟨v, hev, -⟩ | ⟨a, v, hev, -⟩ | ⟨a, -, rfl⟩ | ⟨hev, -⟩
  case inr.inr.inr.inl => rfl
  all_goals cases hev

/-- Who can leave another phase or error code than it found: FINALIZE, a reinitialisation, or a command that enters
ERROR and writes nothing else (10_state.md R38, 60_exceptions.md R228). -/
theorem StepEffect.phase_writers {s : State} {e : Engine} (he : StepEffect s e)
    (h : e.phase ≠ s.engine.phase ∨ e.errcode ≠ s.engine.errcode) :
    (s.NextCommand 0x03000000 ∧ e.phase = .done ∧ e.errcode = s.engine.errcode) ∨ s.NextReinit ∨
      ((∃ w : Word, s.NextCommand w) ∧ e.phase = .error ∧
        e = { s.engine with phase := e.phase, errcode := e.errcode }) := by
  cases he with
  | finalized buf d next => exact .inl ⟨next, rfl, rfl⟩
  | reinitialised next => exact .inr (.inl next)
  | raised w k next => exact .inr (.inr ⟨⟨w, next⟩, rfl, rfl⟩)
  | unchanged | dataWritten | absorbed | fedForward =>
    rcases h with h | h <;> exact absurd rfl h

/-- DATA is written by a write to 0x04 or a reinitialisation. -/
theorem StepEffect.data_writers {s : State} {e : Engine} (he : StepEffect s e)
    (h : e.data ≠ s.engine.data) :
    (∃ v : Word, s.NextIs (.write .word 0x04 v)) ∨ s.NextReinit := by
  cases he with
  | dataWritten v next => exact .inl ⟨v, next⟩
  | reinitialised next => exact .inr next
  | _ => exact absurd rfl h

/-- DIGEST is written by FINALIZE or a reinitialisation. -/
theorem StepEffect.digest_writers {s : State} {e : Engine} (he : StepEffect s e)
    (h : e.digest ≠ s.engine.digest) :
    s.NextCommand 0x03000000 ∨ s.NextReinit := by
  cases he with
  | finalized buf d next => exact .inl next
  | reinitialised next => exact .inr next
  | _ => exact absurd rfl h

/-- The BitCounter is written by UPDATE, FINALIZE or a reinitialisation. -/
theorem StepEffect.cnt_writers {s : State} {e : Engine} (he : StepEffect s e)
    (h : e.cnt ≠ s.engine.cnt) :
    s.NextUpdate ∨ s.NextCommand 0x03000000 ∨ s.NextReinit := by
  cases he with
  | absorbed bytes buf next => exact .inl next
  | finalized buf d next => exact .inr (.inl next)
  | reinitialised next => exact .inr (.inr next)
  | _ => exact absurd rfl h

/-- The DigestState is written by those three or by the end of a transform in progress. -/
theorem StepEffect.ds_writers {s : State} {e : Engine} (he : StepEffect s e)
    (h : e.ds ≠ s.engine.ds) :
    s.NextUpdate ∨ s.NextCommand 0x03000000 ∨ s.NextReinit ∨ s.seq = some 63 := by
  cases he with
  | absorbed bytes buf next => exact .inl next
  | finalized buf d next => exact .inr (.inl next)
  | reinitialised next => exact .inr (.inr (.inl next))
  | fedForward q last => exact .inr (.inr (.inr last))
  | _ => exact absurd rfl h

/-- Buf is written by UPDATE or FINALIZE; a reinitialisation leaves it. -/
theorem StepEffect.buf_writers {s : State} {e : Engine} (he : StepEffect s e)
    (h : e.buf ≠ s.engine.buf) :
    s.NextUpdate ∨ s.NextCommand 0x03000000 := by
  cases he with
  | absorbed bytes buf next => exact .inl next
  | finalized buf d next => exact .inr next
  | _ => exact absurd rfl h

/-- Settles O53: each effect a step can have changes its own fields only. -/
theorem everyFieldHasItsWriters : Obligations.EveryFieldHasItsWriters := by
  intro s t h
  have he := step_effect h
  have hbuf (hb : ∃ j, t.engine.buf.byteAt j ≠ s.engine.buf.byteAt j) : t.engine.buf ≠ s.engine.buf := by
    obtain ⟨j, hj⟩ := hb
    exact fun heq => hj (by rw [heq])
  exact ⟨he.data_writers, he.digest_writers, he.cnt_writers, he.ds_writers, fun hb => he.buf_writers (hbuf hb),
    he.phase_writers, fun addr hn => step_read_engine hn h, step_params h⟩

/-! ### Stale bytes -/

/-- What update leaves depends on the pending bytes and not on the stale ones (10_state.md R25). -/
theorem Engine.SameMessage.updated {e f : Engine} (h : e.SameMessage f) (input : List Byte) {b c : Memory}
    (hp : (Machine.updated e input b).pendingBytes = (Machine.updated f input c).pendingBytes) :
    (Machine.updated e input b).SameMessage (Machine.updated f input c) :=
  { h with
    ds := by simp only [Machine.updated, h.pending, h.ds]
    cnt := by simp only [Machine.updated, h.cnt]
    pending := hp }

/-- update does not see the stale bytes. -/
theorem update_sameMessage {e f : Engine} (h : e.SameMessage f) (input : List Byte) :
    ∃ e' f', update e input = .ok e' ∧ update f input = .ok f' ∧ e'.SameMessage f' := by
  obtain ⟨b, hb, hpe, -, -⟩ := update_spec e input
  obtain ⟨c, hc, hpf, -, -⟩ := update_spec f input
  exact ⟨_, _, hb, hc, h.updated input (by rw [hpe, hpf, h.pending])⟩

/-- At fill level 0 no byte is pending. -/
theorem pendingBytes_eq_nil {e : Engine} (h : fillLevel e.cnt = 0) : e.pendingBytes = [] := by
  rw [← List.length_eq_zero_iff, pendingBytes_length, h]

/-- finalize does not see the stale bytes either; it leaves no byte pending. -/
theorem finalize_sameMessage {e f : Engine} (h : e.SameMessage f) :
    ∃ e' f' d d', finalize e = .ok (e', d) ∧ finalize f = .ok (f', d') ∧ e'.SameMessage f' := by
  obtain ⟨b, hb, -, hbz, -, -⟩ := finalize_spec e
  obtain ⟨c, hc, -, hcz, -, -⟩ := finalize_spec f
  have htr : trailer f = trailer e := by simp only [trailer, h.cnt]
  rw [htr] at hc hcz
  exact ⟨_, _, _, _, hb, hc, h.updated _ (by rw [pendingBytes_eq_nil hbz, pendingBytes_eq_nil hcz])⟩

/-- Error entry keeps the message (60_exceptions.md R228). -/
theorem Engine.SameMessage.raise {e f : Engine} (h : e.SameMessage f) (k : ErrorKind) :
    (e.raise k).SameMessage (f.raise k) :=
  { h with phase := rfl, errcode := rfl }

/-- A reinitialisation leaves an empty message, whatever the buffer holds (44_commands.md R192). -/
theorem Engine.SameMessage.reinit (e f : Engine) : e.reinit.SameMessage f.reinit where
  ds := rfl
  cnt := rfl
  phase := rfl
  errcode := rfl
  data := rfl
  digest := rfl
  pending := by
    have hfill (g : Engine) : fillLevel g.reinit.cnt = 0 := by simp [Engine.reinit, fillLevel]
    rw [pendingBytes_eq_nil (hfill e), pendingBytes_eq_nil (hfill f)]

theorem Engine.SameMessage.setData {e f : Engine} (h : e.SameMessage f) (v : Word) :
    (e.setData v).SameMessage (f.setData v) :=
  { h with data := rfl }

theorem Engine.SameMessage.setDs {e f : Engine} (h : e.SameMessage f) (q : Quad) :
    (e.setDs q).SameMessage (f.setDs q) :=
  { h with ds := rfl }

theorem Engine.SameMessage.publish {e f : Engine} (h : e.SameMessage f) : e.publish.SameMessage f.publish :=
  { h with phase := rfl, digest := by simp [Engine.publish, h.ds] }

/-- A read does not see the stale bytes (20_memory.md R60). -/
theorem busReadValue_sameMessage {e f : Engine} (h : e.SameMessage f) (addr : BitVec 5) :
    busReadValue addr e = busReadValue addr f := by
  simp only [busReadValue, statusWord, h.data, h.phase, h.errcode, h.digest]

theorem State.SameButStale.setEngine {s t : State} (h : s.SameButStale t) {e f : Engine} (he : e.SameMessage f) :
    (s.setEngine e).SameButStale (t.setEngine f) :=
  { h with engine := he }

theorem State.SameButStale.setPending {s t : State} (h : s.SameButStale t) (l : List HostEvent) :
    (s.setPending l).SameButStale (t.setPending l) :=
  { h with pending := rfl }

theorem State.SameButStale.setSeq {s t : State} (h : s.SameButStale t) (i : Option (Fin 64)) :
    (s.setSeq i).SameButStale (t.setSeq i) :=
  { h with seq := rfl }

theorem State.SameButStale.setWork {s t : State} (h : s.SameButStale t) (q : Quad) :
    (s.setWork q).SameButStale (t.setWork q) :=
  { h with work := rfl }

theorem State.SameButStale.raise {s t : State} (h : s.SameButStale t) (k : ErrorKind) :
    (s.raise k).SameButStale (t.raise k) :=
  h.setEngine (h.engine.raise k)

theorem State.SameButStale.busRead {s t : State} (h : s.SameButStale t) (addr : BitVec 5) :
    (busRead addr s).SameButStale (busRead addr t) :=
  { h with reads := by simp only [Machine.busRead, State.setReads_reads, h.reads, busReadValue_sameMessage h.engine] }

theorem State.SameButStale.sequence {s t : State} (h : s.SameButStale t) (i : Fin 64) :
    (s.sequence i).SameButStale (t.sequence i) := by
  unfold State.sequence
  rw [← h.engine.ds, ← h.work]
  split
  · exact h.setSeq _
  · exact (h.setEngine (h.engine.setDs _)).setSeq _

/-- UPDATE answers alike on machines that differ in stale bytes only, the policy's refusal among it. -/
theorem execUpdate_sameOutcome {s t : State} (h : s.SameButStale t) (cnt : BitVec 3) :
    SameOutcome (execUpdate cnt s) (execUpdate cnt t) := by
  obtain ⟨e, f, he, hf, hef⟩ := update_sameMessage h.engine (dataBytes s.engine.data cnt)
  simp only [execUpdate, ← h.engine.phase, ← h.engine.data]
  cases s.engine.phase with
  | error => exact h
  | done => exact h.raise _
  | active =>
    by_cases hle : cnt.toNat ≤ 4
    · simp only [if_pos hle, absorb, ← h.engine.cnt, ← h.params, he, hf]
      split
      · rfl
      · exact h.setEngine hef
    · simp only [if_neg hle]
      exact h.raise _

theorem execFinalize_sameOutcome {s t : State} (h : s.SameButStale t) :
    SameOutcome (execFinalize s) (execFinalize t) := by
  obtain ⟨e, f, _, _, he, hf, hef⟩ := finalize_sameMessage h.engine
  simp only [execFinalize, ← h.engine.phase]
  cases s.engine.phase with
  | error => exact h
  | done => exact h.raise _
  | active =>
    simp only [he, hf]
    exact h.setEngine hef.publish

/-- So does a CMD write of any word, legal or not (44_commands.md R190). -/
theorem commandWrite_sameOutcome {s t : State} (h : s.SameButStale t) (w : Word) :
    SameOutcome (commandWrite w s) (commandWrite w t) := by
  simp only [commandWrite, decode]
  cases hd : decodeCmd w with
  | error =>
    simp only [illegalCommand, ← h.engine.phase]
    cases s.engine.phase with
    | error => exact h
    | active | done => exact h.raise _
  | ok i =>
    rcases (decodeCmd_iff w i).mp hd with ⟨-, rfl⟩ | ⟨-, rfl⟩ | ⟨cnt, -, -, rfl⟩ | ⟨-, rfl⟩
    · exact h
    · exact h.setEngine (.reinit _ _)
    · exact execUpdate_sameOutcome h cnt
    · exact execFinalize_sameOutcome h

/-- So does every host event, the refused accesses among them. -/
theorem serve_sameOutcome {s t : State} (h : s.SameButStale t) (ev : HostEvent) :
    SameOutcome (serve ev s) (serve ev t) := by
  cases ev with
  | write width addr v =>
    simp only [serve, busWrite]
    split
    · split
      · exact commandWrite_sameOutcome h v
      · split
        · exact h.setEngine (h.engine.setData v)
        · exact h
    · rfl
  | read width addr =>
    simp only [serve]
    split
    · exact h.busRead addr
    · rfl
  | reset => exact (h.setEngine (.reinit _ _)).setSeq none

/-- Settles O56: both machines take the same kind of step, and neither a transform's step nor a host event reads a stale
byte. -/
theorem staleBytesAreUnobservable : Obligations.StaleBytesAreUnobservable := by
  intro s t h
  cases hs : s.seq with
  | some i =>
    rw [step_transform hs, step_transform (h.seq.symm.trans hs), ← h.work, ← h.x]
    exact (h.setWork _).sequence i
  | none =>
    have ht := h.seq.symm.trans hs
    cases hp : s.pending with
    | nil =>
      rw [step_idle hs hp, step_idle ht (h.pending.symm.trans hp)]
      exact h
    | cons ev rest =>
      rw [step_event hs hp, step_event ht (h.pending.symm.trans hp)]
      exact serve_sameOutcome (h.setPending rest) ev

/-! ### Reset, STATUS, and the step of a transform -/

/-- Settles O1: the fields are read off, and INIT is a reinitialisation of the engine. -/
theorem resetLeavesTheSpecsValues : Obligations.ResetLeavesTheSpecsValues :=
  ⟨rfl, rfl, rfl, fun _ _ => rfl, rfl, rfl, rfl, rfl, rfl, fun _ => ⟨_, rfl, rfl⟩⟩

theorem statusWord_busy (e : Engine) : (statusWord e).extractLsb' 0 1 = 0 :=
  BitVec.extractLsb'_append_eq_right (a := 0#24 ++ e.errcode ++ 0#1 ++ e.phase.code)

theorem statusWord_phase (e : Engine) : (statusWord e).extractLsb' 1 2 = e.phase.code := by
  rw [statusWord, BitVec.extractLsb'_append_eq_of_le (by decide)]
  exact BitVec.extractLsb'_append_eq_right

theorem statusWord_bit3 (e : Engine) : (statusWord e).extractLsb' 3 1 = 0 := by
  rw [statusWord, BitVec.extractLsb'_append_eq_of_le (by decide), BitVec.extractLsb'_append_eq_of_le (by decide)]
  exact BitVec.extractLsb'_append_eq_right

/-- Above its four low bits the STATUS word is the error code under 24 zeros (10_state.md R34). -/
theorem statusWord_above (e : Engine) (start len : Nat) :
    (statusWord e).extractLsb' (4 + start) len = (0#24 ++ e.errcode).extractLsb' start len := by
  rw [statusWord, BitVec.extractLsb'_append_eq_of_le (by omega), BitVec.extractLsb'_append_eq_of_le (by omega),
    BitVec.extractLsb'_append_eq_of_le (by omega)]
  congr 1
  omega

/-- Settles O43: STATUS is read field by field off the parts it is put together from. -/
theorem statusWordHasItsFields : Obligations.StatusWordHasItsFields :=
  ⟨fun _ => rfl, fun e => ⟨statusWord_busy e, (statusWord_phase e).trans (by cases e.phase <;> rfl),
    statusWord_bit3 e, (statusWord_above e 0 4).trans BitVec.extractLsb'_append_eq_right,
    (statusWord_above e 4 24).trans BitVec.extractLsb'_append_eq_left⟩⟩

/-- Settles O50: exec of the decoded STEP is the step function on the working registers, and State.sequence follows it. -/
theorem transformStepRunsTheDecodedInstruction : Obligations.TransformStepRunsTheDecodedInstruction := by
  intro s t i ins hs hdec hexec
  cases hdec
  cases (exec_decodeStep i s).symm.trans hexec
  rw [step_transform hs]
  refine ⟨fun h => ?_, fun h => ?_⟩
  · rw [State.sequence, dif_pos h]; rfl
  · rw [State.sequence, dif_neg (by omega)]; rfl

end Sys2Proof.Machine

/-! PROOFS. The statements about the memory side: the order of the accesses, the bytes of the digest and of the length
field, and the accesses that do nothing or are refused. -/

namespace Sys2Proof.Machine

/-! ### The accesses in the order issued -/

theorem State.setPending_self {s : State} {l : List HostEvent} (h : s.pending = l) : s.setPending l = s := by
  subst h; rfl

/-- Go on from an outcome with the waiting accesses replaced. -/
def withPending (l : List HostEvent) (o : Host.Outcome State Fault Refusal) : Host.Outcome State Fault Refusal :=
  andThen o fun s => .next (s.setPending l)

/-- The end of an internal operation does not see the waiting accesses. -/
theorem commit_setPending (s : State) (l : List HostEvent) (r : Except Abort Engine) :
    (s.setPending l).commit r = withPending l (s.commit r) := by
  rcases r with (k | f) | e <;> rfl

theorem execUpdate_setPending (s : State) (l : List HostEvent) (cnt : BitVec 3) :
    execUpdate cnt (s.setPending l) = withPending l (execUpdate cnt s) := by
  simp only [execUpdate, absorb, State.setPending_engine, State.setPending_params, commit_setPending]
  cases s.engine.phase with
  | error | done => rfl
  | active =>
    by_cases hle : cnt.toNat ≤ 4
    · simp only [if_pos hle]
      split <;> rfl
    · simp only [if_neg hle]
      rfl

theorem execFinalize_setPending (s : State) (l : List HostEvent) :
    execFinalize (s.setPending l) = withPending l (execFinalize s) := by
  simp only [execFinalize, State.setPending_engine, commit_setPending]
  cases s.engine.phase with
  | error | done => rfl
  | active => cases finalize s.engine <;> rfl

/-- A command does not see the accesses that wait behind it (20_memory.md R59, R64). -/
theorem commandWrite_setPending (w : Word) (s : State) (l : List HostEvent) :
    commandWrite w (s.setPending l) = withPending l (commandWrite w s) := by
  simp only [commandWrite, decode]
  cases hd : decodeCmd w with
  | error =>
    simp only [illegalCommand, State.setPending_engine]
    cases s.engine.phase <;> rfl
  | ok i =>
    rcases (decodeCmd_iff w i).mp hd with ⟨-, rfl⟩ | ⟨-, rfl⟩ | ⟨cnt, -, -, rfl⟩ | ⟨-, rfl⟩
    · rfl
    · rfl
    · exact execUpdate_setPending s l cnt
    · exact execFinalize_setPending s l

/-- A host event does not see the accesses that wait behind it. -/
theorem serve_setPending (ev : HostEvent) (s : State) (l : List HostEvent) :
    serve ev (s.setPending l) = withPending l (serve ev s) := by
  cases ev with
  | write width addr v =>
    simp only [serve, busWrite, commandWrite_setPending]
    split
    · split
      · rfl
      · split <;> rfl
    · rfl
  | read width addr =>
    simp only [serve]
    split <;> rfl
  | reset => rfl

/-- Settles O52, by induction on the accesses: a step serves the first one, which leaves the others waiting and no
transform in progress. -/
theorem accessesTakeEffectInOrder : Obligations.AccessesTakeEffectInOrder := by
  intro s evs rest hs hp
  induction evs generalizing s with
  | nil => exact congrArg _ (State.setPending_self hp).symm
  | cons ev evs ih =>
    have hstep : step s = withPending (evs ++ rest) (serve ev s) :=
      (step_event hs hp).trans (serve_setPending ev s _)
    rw [List.length_cons, stepMany, serveAll, hstep, serve_setPending]
    cases hserve : serve ev s with
    | next t =>
      rw [hserve] at hstep
      have hseq : t.seq = none := by_contra fun ht => (step_seq hstep ht).1 hs
      exact ih (t.setPending (evs ++ rest)) hseq rfl
    | fault | refused => rfl

/-! ### The bytes of the digest and of the length field -/

/-- Lane m of a Word is its byte m (41_codec.md R120). -/
theorem wordBytes_eq_lanes (w : Word) : wordBytes w = (List.range 4).map fun m => w.extractLsb' (8 * m) 8 := rfl

/-- Byte 4j + m of encoded Words is lane m of Word j (41_codec.md R120). -/
theorem encodeWords_getElem? (ws : List Word) (j : Nat) {m : Nat} (hm : m < 4) :
    (encodeWords ws)[4 * j + m]? = ws[j]?.map fun w => w.extractLsb' (8 * m) 8 := by
  induction ws generalizing j with
  | nil => rfl
  | cons w ws ih =>
    have hcons : encodeWords (w :: ws) = wordBytes w ++ encodeWords ws := List.flatMap_cons
    rw [hcons]
    cases j with
    | zero =>
      rw [List.getElem?_append_left (by rw [wordBytes_length]; omega)]
      simp [wordBytes_eq_lanes, hm]
    | succ j =>
      rw [List.getElem?_append_right (by rw [wordBytes_length]; omega), List.getElem?_cons_succ, ← ih]
      congr 1
      rw [wordBytes_length]; omega

/-- Settles O34: the digest encodes the four Words that FINALIZE publishes. -/
theorem digestBytesAreTheLanesOfDigest : Obligations.DigestBytesAreTheLanesOfDigest := by
  intro e j m hj hm words
  have hlane : (digestBytes e.ds)[4 * j + m]? = some (words[j].extractLsb' (8 * m) 8) := by
    have hword : [e.ds.a, e.ds.b, e.ds.c, e.ds.d][j]? = some words[j] := List.getElem?_eq_getElem hj
    rw [digestBytes, encodeWords_getElem? _ _ hm, hword, Option.map_some]
  exact ⟨encodeWords_length _, hlane, rfl, hlane⟩

/-- A field of a field of a bit vector is a field of it. -/
theorem extractLsb'_extractLsb' {n : Nat} (v : BitVec n) (lo start : Nat) {width len : Nat}
    (h : start + len ≤ width) :
    (v.extractLsb' lo width).extractLsb' start len = v.extractLsb' (lo + start) len := by
  ext i hi
  have hlt : start + i < width := by omega
  simp [hlt, Nat.add_assoc]

/-- Settles O35: the lanes of cnt_lo are the four low bytes of the count, those of cnt_hi its four high bytes. -/
theorem lengthFieldIsTheCountLittleEndian : Obligations.LengthFieldIsTheCountLittleEndian := by
  intro cnt
  have hhalf (lo : Nat) : wordBytes (cnt.extractLsb' lo 32) =
      (List.range 4).map fun m => cnt.extractLsb' (lo + 8 * m) 8 := by
    rw [wordBytes_eq_lanes]
    refine List.map_congr_left fun m hm => extractLsb'_extractLsb' cnt lo (8 * m) ?_
    have := List.mem_range.mp hm
    omega
  calc lengthField cnt = wordBytes (cntLo cnt) ++ (wordBytes (cntHi cnt) ++ []) := rfl
    _ = (List.range 8).map fun m => cnt.extractLsb' (8 * m) 8 := by
      rw [cntLo, cntHi, hhalf, hhalf]; rfl

/-! ### Accesses that do nothing, and accesses that are refused -/

/-- The accesses the engine serves are 32 bits wide at a multiple of 4 (20_memory.md R58). -/
theorem fullAccess_iff (width : Width) (addr : BitVec 5) :
    fullAccess width addr = true ↔ width = .word ∧ addr.toNat % 4 = 0 := by
  have haddr : addr.extractLsb' 0 2 = 0 ↔ addr.toNat % 4 = 0 := by
    rw [← BitVec.toNat_inj, BitVec.extractLsb'_toNat]; rfl
  simp only [fullAccess, Bool.and_eq_true, decide_eq_true_eq, haddr]

/-- Any other access is refused: SUBWORD_ACCESS_POLICY has no other value (D19). -/
theorem subwordAccess_eq (s : State) : subwordAccess s = .refused .subwordAccess := by
  unfold subwordAccess
  cases s.params.subwordAccess
  rfl

/-- A 32-bit write to an aligned address of neither CMD nor DATA is ignored (20_memory.md R61). -/
theorem serve_write_ignored {addr : BitVec 5} (hfull : fullAccess .word addr = true) (hcmd : addr ≠ addrCmd)
    (hdata : addr ≠ addrData) (v : Word) (s : State) : serve (.write .word addr v) s = .next s := by
  rw [serve, if_pos hfull, busWrite, if_neg hcmd, if_neg hdata]

/-- Settles O46: CMD and 0x0C are no readable register, and the six addresses are no writable one. -/
theorem unmappedAndReadOnlyAccessesAreQuiet : Obligations.UnmappedAndReadOnlyAccessesAreQuiet := by
  intro s rest hs
  constructor
  · rintro addr (rfl | rfl) hp <;> exact step_event hs hp
  · intro addr v haddr hp
    have hignored : ∀ a ∈ [(0x08 : BitVec 5), 0x0C, 0x10, 0x14, 0x18, 0x1C],
        fullAccess .word a = true ∧ a ≠ addrCmd ∧ a ≠ addrData := by decide
    obtain ⟨hfull, hcmd, hdata⟩ := hignored addr haddr
    exact (step_event hs hp).trans (serve_write_ignored hfull hcmd hdata v _)

/-- Settles O48: such an access is not one the engine serves. -/
theorem subwordAndMisalignedAccessesAreRefused : Obligations.SubwordAndMisalignedAccessesAreRefused := by
  intro s width addr v rest hs hbad hp
  have hnot : ¬ fullAccess width addr = true := by
    rw [fullAccess_iff]
    rintro ⟨hwidth, haddr⟩
    exact hbad.elim (· hwidth) (· haddr)
  rcases hp with hp | hp <;> rw [step_event hs hp, serve, if_neg hnot, subwordAccess_eq]

end Sys2Proof.Machine

/-! PROOFS. The statements about the encoded forms: decoder and encoder are inverse to each other, the legal words, and
the message-word index. -/

namespace Sys2Proof

/-! ### The decoder and the encoder -/

/-- The decoder gives back every well-formed instruction (30_encoding.md R71 to R79). -/
theorem decode_encode {i : Instr} (h : i.wellFormed = true) : decode (encode i) = .ok i := by
  cases i with
  | update cnt => exact Laws.RoundTrip.update cnt h
  | _ => rfl

/-- What decodes is the encoding of a well-formed instruction (R76, R79). -/
theorem encode_of_decode {e : Encoded} {i : Instr} (h : decode e = .ok i) :
    i.wellFormed = true ∧ encode i = e := by
  cases e with
  | cmd w =>
    have hupdate : ∀ cnt : BitVec 3, encode (.update cnt) = .cmd (0x02000000 + cnt.setWidth 32) := by decide
    rcases (decodeCmd_iff w i).mp h with ⟨rfl, rfl⟩ | ⟨rfl, rfl⟩ | ⟨cnt, hcnt, rfl, rfl⟩ | ⟨rfl, rfl⟩
    · exact ⟨rfl, rfl⟩
    · exact ⟨rfl, rfl⟩
    · exact ⟨decide_eq_true hcnt, hupdate cnt⟩
    · exact ⟨rfl, rfl⟩
  | step j =>
    have hrow : ∀ j : BitVec 6, (decodeStep j).wellFormed = true ∧ encode (decodeStep j) = .step j := by decide
    cases h
    exact hrow j

/-- Reading the bytes of an encoded form decodes it and leaves the bytes that follow (R70; assumption 14). -/
theorem decodeBytes_bytes (e : Encoded) (rest : List Byte) :
    decodeBytes e.form (e.bytes ++ rest) = (decode e).map fun i => (i, rest) := by
  cases e with
  | cmd w =>
    have hw : cmdOfBytes (w.extractLsb' 0 8) (w.extractLsb' 8 8) (w.extractLsb' 16 8) (w.extractLsb' 24 8) = w :=
      Machine.bytesWord_wordBytes w
    simp only [Encoded.form, Encoded.bytes, List.cons_append, List.nil_append, decodeBytes, hw]
    cases decode (.cmd w) <;> rfl
  | step j =>
    have hbyte : ∀ j : BitVec 6, (j.setWidth 8).toNat < 64 ∧ (j.setWidth 8).setWidth 6 = j := by decide
    obtain ⟨hlt, hj⟩ := hbyte j
    simp only [Encoded.form, Encoded.bytes, List.cons_append, List.nil_append, decodeBytes, if_pos hlt, hj]
    rfl

/-- Bytes that decode begin with the bytes of an encoded form. -/
theorem bytes_of_decodeBytes {form : Form} {bs rest : List Byte} {i : Instr}
    (h : decodeBytes form bs = .ok (i, rest)) : ∃ e : Encoded, e.form = form ∧ bs = e.bytes ++ rest := by
  cases form with
  | cmd =>
    match bs with
    | b0 :: b1 :: b2 :: b3 :: tail =>
      have hbytes : (Encoded.cmd (cmdOfBytes b0 b1 b2 b3)).bytes = [b0, b1, b2, b3] :=
        Machine.wordBytes_bytesWord b0 b1 b2 b3
      refine ⟨.cmd (cmdOfBytes b0 b1 b2 b3), rfl, ?_⟩
      simp only [decodeBytes] at h
      split at h <;> cases h
      rw [hbytes]; rfl
    | [] | [_] | [_, _] | [_, _, _] => cases h
  | step =>
    match bs with
    | b :: tail =>
      simp only [decodeBytes] at h
      split at h
      · next hlt =>
        cases h
        have hbyte : (b.setWidth 6).setWidth 8 = b := by bv_omega
        exact ⟨.step (b.setWidth 6), rfl, by rw [Encoded.bytes, hbyte]; rfl⟩
      · cases h
    | [] => cases h

/-- Settles O19: reading the bytes of an encoded form decodes it, and decoding what the encoder wrote gives the
instruction back. -/
theorem decodeOfEncodeIsTheInstruction : Obligations.DecodeOfEncodeIsTheInstruction := by
  intro i rest h
  rw [decodeBytes_bytes, decode_encode h]
  rfl

/-- Settles O20: bytes that decode begin with those of an encoded form, and an encoded form that decodes is the encoding
of a well-formed instruction. -/
theorem encodeOfDecodeIsTheBytes : Obligations.EncodeOfDecodeIsTheBytes := by
  intro form bs rest i h
  obtain ⟨e, rfl, rfl⟩ := bytes_of_decodeBytes h
  have hdec : decode e = .ok i := by
    rw [decodeBytes_bytes] at h
    cases hd : decode e <;> rw [hd] at h <;> cases h
    rfl
  obtain ⟨hwf, rfl⟩ := encode_of_decode hdec
  exact ⟨hwf, rfl, rfl⟩

/-- Settles O17: each word is the encoding of its instruction. -/
theorem wordsOfTheSpecDecode : Obligations.WordsOfTheSpecDecode :=
  ⟨decode_encode (i := .nop) rfl, decode_encode (i := .init) rfl, decode_encode (i := .update 3) rfl,
    decode_encode (i := .finalize) rfl, decode_encode (i := .step15) rfl, decode_encode (i := .step17) rfl,
    decode_encode (i := .step33) rfl, decode_encode (i := .step63) rfl⟩

/-! ### The legal words -/

/-- A word matches under UPDATE's mask when its bits above the low three do (30_encoding.md R78). -/
theorem updateMatch_iff (w : Word) : w &&& 0xFFFFFFF8 = 0x02000000 ↔ w.toNat / 8 = 0x02000000 / 8 := by
  have hmask : (0xFFFFFFF8 : Word) = BitVec.allOnes 32 <<< 3 := by decide
  rw [hmask, ← BitVec.shiftLeft_ushiftRight, ← BitVec.toNat_inj, BitVec.toNat_shiftLeft, BitVec.toNat_ushiftRight,
    Nat.shiftRight_eq_div_pow, Nat.shiftLeft_eq]
  have := w.isLt
  simp only [BitVec.ofNat_eq_ofNat, BitVec.toNat_ofNat]
  omega

/-- The word of UPDATE with a CNT, as a number. -/
theorem updateWord_iff (w : Word) (cnt : BitVec 3) :
    w = 0x02000000 + cnt.setWidth 32 ↔ w.toNat = 0x02000000 + cnt.toNat := by
  have hword : ∀ cnt : BitVec 3, (0x02000000 + cnt.setWidth 32 : Word).toNat = 0x02000000 + cnt.toNat := by decide
  rw [← BitVec.toNat_inj, hword]

/-- UPDATE's row of the match and mask: a word of UPDATE with a legal CNT is one that matches, CNT being its low three
bits. -/
theorem updateRow_iff (w : Word) (i : Instr) :
    (∃ cnt : BitVec 3, cnt.toNat ≤ 4 ∧ w = 0x02000000 + cnt.setWidth 32 ∧ i = .update cnt) ↔
      w &&& 0xFFFFFFF8 = 0x02000000 ∧ w.toNat % 8 ≤ 4 ∧ i = .update (BitVec.ofNat 3 (w.toNat % 8)) := by
  rw [updateMatch_iff]
  constructor
  · rintro ⟨cnt, hcnt, hw, rfl⟩
    rw [updateWord_iff] at hw
    have hlow : w.toNat % 8 = cnt.toNat := by omega
    exact ⟨by omega, by omega, by rw [hlow, BitVec.ofNat_toNat, BitVec.setWidth_eq]⟩
  · rintro ⟨hmatch, hcnt, rfl⟩
    have hlow : (BitVec.ofNat 3 (w.toNat % 8)).toNat = w.toNat % 8 := by rw [BitVec.toNat_ofNat]; omega
    exact ⟨_, by omega, (updateWord_iff w _).mpr (by omega), rfl⟩

/-- The words that decode, as numbers (R78). -/
theorem legalWord_iff (w : Word) : (∃ i : Instr, decode (.cmd w) = .ok i) ↔
    w.toNat = 0 ∨ w.toNat = 0x01000000 ∨ (0x02000000 ≤ w.toNat ∧ w.toNat ≤ 0x02000004) ∨
      w.toNat = 0x03000000 := by
  constructor
  · rintro ⟨i, h⟩
    rcases (decodeCmd_iff w i).mp h with ⟨rfl, -⟩ | ⟨rfl, -⟩ | ⟨cnt, hcnt, hw, -⟩ | ⟨rfl, -⟩
    · exact .inl rfl
    · exact .inr (.inl rfl)
    · have := (updateWord_iff w cnt).mp hw
      omega
    · exact .inr (.inr (.inr rfl))
  · rintro (h | h | ⟨hlo, hhi⟩ | h)
    · exact ⟨.nop, (decodeCmd_iff w _).mpr (.inl ⟨BitVec.eq_of_toNat_eq h, rfl⟩)⟩
    · exact ⟨.init, (decodeCmd_iff w _).mpr (.inr (.inl ⟨BitVec.eq_of_toNat_eq h, rfl⟩))⟩
    · exact ⟨_, (decodeCmd_iff w _).mpr (.inr (.inr (.inl
        ((updateRow_iff w _).mpr ⟨(updateMatch_iff w).mpr (by omega), by omega, rfl⟩))))⟩
    · exact ⟨.finalize, (decodeCmd_iff w _).mpr (.inr (.inr (.inr ⟨BitVec.eq_of_toNat_eq h, rfl⟩)))⟩

/-- Settles O18: the mask of the rows without operand leaves the word as it is, and UPDATE's mask leaves out CNT. -/
theorem legalWordsFollowMatchAndMask : Obligations.LegalWordsFollowMatchAndMask := by
  refine ⟨fun w i => ?_, fun w => ?_⟩
  · have hfull : w &&& 0xFFFFFFFF = w := BitVec.and_allOnes
    rw [hfull, ← updateRow_iff]
    exact decodeCmd_iff w i
  · rw [legalWord_iff]
    simp only [List.mem_cons, List.not_mem_nil, or_false]
    omega

end Sys2Proof

namespace Sys2Proof.Machine

/-! ### The message-word index -/

/-- k(i) by its formula in the round of i (30_encoding.md R80). -/
theorem msgIndex_val (i : Fin 64) :
    (i.val / 16 = 0 → (msgIndex i).val = i.val % 16) ∧
      (i.val / 16 = 1 → (msgIndex i).val = (1 + 5 * i.val) % 16) ∧
      (i.val / 16 = 2 → (msgIndex i).val = (5 + 3 * i.val) % 16) ∧
      (i.val / 16 = 3 → (msgIndex i).val = 7 * i.val % 16) := by
  revert i; decide

/-- The step of round r that uses message word k: 13, 11 and 7 are the inverses of 5, 3 and 7 mod 16. -/
def stepUsing (r : Fin 4) (k : Fin 16) : Fin 64 :=
  match r with
  | 0 => ⟨k.val, by omega⟩
  | 1 => ⟨16 + 13 * (k.val + 15) % 16, by omega⟩
  | 2 => ⟨32 + 11 * (k.val + 11) % 16, by omega⟩
  | 3 => ⟨48 + 7 * k.val % 16, by omega⟩

/-- In every round every message word is used (R80). -/
theorem msgIndex_stepUsing : ∀ (r : Fin 4) (k : Fin 16),
    (stepUsing r k).val / 16 = r.val ∧ msgIndex (stepUsing r k) = k := by
  decide

/-- Settles O21: i and its index within the round differ by a multiple of 16. -/
theorem messageIndexFollowsItsFormula : Obligations.MessageIndexFollowsItsFormula := by
  intro i j
  obtain ⟨h0, h1, h2, h3⟩ := msgIndex_val i
  refine ⟨?_, ?_, ?_, ?_, fun k => ⟨_, msgIndex_stepUsing ⟨i.val / 16, by omega⟩ k⟩⟩
  all_goals intro hround; omega

end Sys2Proof.Machine

/-! PROOFS. The pseudo-instruction HASH: what the engine holds after INIT, after each UPDATE and after FINALIZE. -/

namespace Sys2Proof.Machine

/-! ### The engine shows the message a host absorbs -/

theorem Engine.Shows.active {e : Engine} {m : List Byte} (h : e.Shows (.absorbing m)) : e.phase = .active := h.1

theorem Engine.Shows.errcode {e : Engine} {m : List Byte} (h : e.Shows (.absorbing m)) : e.errcode = 0 := h.2.1

theorem Engine.Shows.holds {e : Engine} {m : List Byte} (h : e.Shows (.absorbing m)) : e.Holds m := h.2.2

theorem Engine.Shows.digest {e : Engine} {m : List Byte} (h : e.Shows (.finished m)) :
    e.digest = #v[(oneShot m).a, (oneShot m).b, (oneShot m).c, (oneShot m).d] := h.2.2

/-- A reinitialised engine has absorbed nothing (44_commands.md R192). -/
theorem Engine.Shows.reinit (e : Engine) : e.reinit.Shows (.absorbing []) :=
  ⟨rfl, rfl, ⟨rfl, rfl, pendingBytes_eq_nil (rfl : fillLevel 0 = 0)⟩⟩

/-- The message in an engine does not depend on DATA. -/
theorem Engine.Shows.setData {e : Engine} {m : List Byte} (h : e.Shows (.absorbing m)) (v : Word) :
    (e.setData v).Shows (.absorbing m) :=
  ⟨h.active, h.errcode, { h.holds with }⟩

/-- update appends its input to the message an engine holds (43_engine.md R160 to R164). -/
theorem Engine.Holds.update {e e' : Engine} {m input : List Byte} (h : e.Holds m)
    (hu : Machine.update e input = .ok e') : e'.Holds (m ++ input) := by
  obtain ⟨buf, hu', hpending, -, -⟩ := update_spec e input
  cases hu'.symm.trans hu
  have hstream := compressBlocks_stream initialDigestState m input
  refine ⟨?_, ?_, ?_⟩
  · simp only [updated, h.cnt, advanceCounter, List.length_append, Nat.mul_add, BitVec.ofNat_add]
  · simp only [updated, h.pending, h.ds, hstream.1]
  · rw [hpending, h.pending, hstream.2]

theorem Engine.Shows.update {e e' : Engine} {m input : List Byte} (h : e.Shows (.absorbing m))
    (hu : Machine.update e input = .ok e') : e'.Shows (.absorbing (m ++ input)) := by
  have hholds := h.holds.update hu
  obtain ⟨buf, hu', -⟩ := update_spec e input
  cases hu'.symm.trans hu
  exact ⟨h.active, h.errcode, hholds⟩

/-- The fill level is the message's length mod 64, also after the counter has wrapped (10_state.md R24). -/
theorem Engine.Holds.fillLevel {e : Engine} {m : List Byte} (h : e.Holds m) :
    Machine.fillLevel e.cnt = m.length % 64 := by
  rw [fillLevel_eq, h.cnt, BitVec.toNat_ofNat]
  omega

/-- The first n bytes of PADDING (43_engine.md R166). -/
theorem padding_take {n : Nat} (h1 : 1 ≤ n) (h64 : n ≤ 64) :
    padding.take n = 0x80 :: List.replicate (n - 1) 0x00 := by
  obtain ⟨k, rfl⟩ : ∃ k, n = k + 1 := ⟨n - 1, by omega⟩
  rw [padding, List.take_succ_cons, List.take_replicate, Nat.min_eq_left (by omega), Nat.add_sub_cancel]

/-- The trailer of finalize completes the padded message (43_engine.md R166, R168). -/
theorem Engine.Holds.append_trailer {e : Engine} {m : List Byte} (h : e.Holds m) :
    m ++ trailer e = paddedMessage m := by
  obtain ⟨h1, h64, -⟩ := padLen_bounds (Nat.mod_lt m.length (by decide : 0 < 64))
  rw [trailer, h.fillLevel, h.cnt, padding_take h1 h64, paddedMessage, List.append_assoc]

/-- finalize leaves the one-shot digest of the message the engine holds in the DigestState (43_engine.md R169). -/
theorem Engine.Holds.updated_trailer_ds {e : Engine} {m : List Byte} (h : e.Holds m) (buf : Memory) :
    (updated e (trailer e) buf).ds = oneShot m := by
  rw [updated, h.pending, h.ds, (compressBlocks_stream initialDigestState m (trailer e)).1, h.append_trailer, oneShot]

/-- After FINALIZE the engine shows the finished message (44_commands.md R194). -/
theorem Engine.Shows.publish {e : Engine} {m : List Byte} (h : e.Shows (.absorbing m)) (buf : Memory) :
    (updated e (trailer e) buf).publish.Shows (.finished m) := by
  rw [Engine.Shows, ← h.holds.updated_trailer_ds buf]
  exact ⟨rfl, h.errcode, rfl⟩

/-- STATUS of a finished message (44_commands.md R196). -/
theorem Engine.Shows.statusWord {e : Engine} {m : List Byte} (h : e.Shows (.finished m)) :
    Machine.statusWord e = 0x00000002 := by
  obtain ⟨hphase, hcode, -⟩ := h
  rw [Machine.statusWord, hphase, hcode]
  rfl

/-! ### The accesses of the host's lines -/

/-- A write to CMD executes the instruction its word decodes to (44_commands.md R190). -/
theorem serve_command {w : Word} {i : Instr} (h : decode (.cmd w) = .ok i) (s : State) :
    serve (.write .word addrCmd w) s = exec i s := by
  have hserve : serve (.write .word addrCmd w) s = commandWrite w s := rfl
  rw [hserve, commandWrite, h]

/-- The word the line UPDATE writes to CMD (30_encoding.md R73, R82). -/
theorem decode_updateWord {cnt : BitVec 3} (h : cnt.toNat ≤ 4) :
    decode (.cmd (0x02000000 ||| cnt.setWidth 32)) = .ok (.update cnt) := by
  have hword : ∀ cnt : BitVec 3, encode (.update cnt) = .cmd (0x02000000 ||| cnt.setWidth 32) := by decide
  rw [← hword]
  exact decode_encode (decide_eq_true h)

/-- No policy refuses an UPDATE after which the message is still below 2^64 bits (43_engine.md R161, D11). -/
theorem Engine.Holds.not_refused {e : Engine} {m : List Byte} (h : e.Holds m) {p : Params} {n : Nat}
    (hlen : p.lengthOverflow = .wrap ∨ 8 * (m.length + n) < 2 ^ 64) :
    ¬(lengthOverflows e.cnt n ∧ p.lengthOverflow = .refuse) := by
  rintro ⟨hover, hrefuse⟩
  rcases hlen with hwrap | hlt
  · cases hwrap.symm.trans hrefuse
  · have hcnt : e.cnt.toNat = 8 * m.length % 2 ^ 64 := by rw [h.cnt, BitVec.toNat_ofNat]
    have hge : 2 ^ 64 ≤ e.cnt.toNat + 8 * n := of_decide_eq_true hover
    omega

/-- UPDATE appends the bytes it takes from DATA to the message (44_commands.md R193). -/
theorem exec_update_shows {s : State} {m : List Byte} (h : s.engine.Shows (.absorbing m)) {cnt : BitVec 3}
    (hcnt : cnt.toNat ≤ 4)
    (hlen : s.params.lengthOverflow = .wrap ∨ 8 * (m.length + (dataBytes s.engine.data cnt).length) < 2 ^ 64) :
    ∃ t : State, exec (.update cnt) s = .next t ∧
      t.engine.Shows (.absorbing (m ++ dataBytes s.engine.data cnt)) ∧ t.params = s.params := by
  obtain ⟨buf, hexec, hu⟩ := execUpdate_active h.active hcnt (h.holds.not_refused hlen)
  exact ⟨_, hexec, h.update hu, rfl⟩

/-- FINALIZE finishes the message (44_commands.md R194). -/
theorem exec_finalize_shows {s : State} {m : List Byte} (h : s.engine.Shows (.absorbing m)) :
    ∃ t : State, exec .finalize s = .next t ∧ t.engine.Shows (.finished m) := by
  obtain ⟨buf, hexec, -⟩ := execFinalize_active h.active
  exact ⟨_, hexec, h.publish buf⟩

/-- The two accesses of the line UPDATE append its bytes to the message (30_encoding.md R82). -/
theorem serveAll_updateLine {s : State} {m : List Byte} (h : s.engine.Shows (.absorbing m)) {cnt : BitVec 3}
    (data : Word) (hcnt : cnt.toNat ≤ 4)
    (hlen : s.params.lengthOverflow = .wrap ∨ 8 * (m.length + (dataBytes data cnt).length) < 2 ^ 64) :
    ∃ t : State, serveAll (HostLine.update cnt data).events s = .next t ∧
      t.engine.Shows (.absorbing (m ++ dataBytes data cnt)) ∧ t.params = s.params := by
  obtain ⟨t, hexec, ht⟩ :=
    exec_update_shows (s := s.setEngine (s.engine.setData data)) (h.setData data) hcnt hlen
  refine ⟨t, ?_, ht⟩
  calc serveAll (HostLine.update cnt data).events s
      = andThen (serve (.write .word addrCmd (0x02000000 ||| cnt.setWidth 32))
          (s.setEngine (s.engine.setData data))) .next := rfl
    _ = .next t := by rw [serve_command (decode_updateWord hcnt), hexec]; rfl

/-- The accesses of one sequence, then those of another (20_memory.md R64). -/
theorem serveAll_append (evs evs' : List HostEvent) (s : State) :
    serveAll (evs ++ evs') s = andThen (serveAll evs s) (serveAll evs') := by
  induction evs generalizing s with
  | nil => rfl
  | cons ev evs ih =>
    rw [List.cons_append, serveAll, serveAll]
    cases serve ev s with
    | next t => exact ih t
    | fault | refused => rfl

/-- `UpdateLines ls m`: the lines are UPDATEs of at most four bytes each, which hand over the bytes m in order. -/
inductive UpdateLines : List HostLine → List Byte → Prop where
  | nil : UpdateLines [] []
  | update {cnt : BitVec 3} {data : Word} {bytes m : List Byte} {ls : List HostLine} (legal : cnt.toNat ≤ 4)
      (lanes : dataBytes data cnt = bytes) (more : UpdateLines ls m) :
      UpdateLines (.update cnt data :: ls) (bytes ++ m)

/-- UPDATEB m hands over m (30_encoding.md R83). -/
theorem updateLines_updateB : ∀ m : List Byte, UpdateLines (updateB m) m
  | b0 :: b1 :: b2 :: b3 :: rest =>
    .update (bytes := [b0, b1, b2, b3]) (by decide) (congrArg (List.take 4) (wordBytes_bytesWord b0 b1 b2 b3))
      (updateLines_updateB rest)
  | [b0, b1, b2] =>
    .update (bytes := [b0, b1, b2]) (by decide) (congrArg (List.take 3) (wordBytes_bytesWord b0 b1 b2 0)) .nil
  | [b0, b1] => .update (bytes := [b0, b1]) (by decide) (congrArg (List.take 2) (wordBytes_bytesWord b0 b1 0 0)) .nil
  | [b0] => .update (bytes := [b0]) (by decide) (congrArg (List.take 1) (wordBytes_bytesWord b0 0 0 0)) .nil
  | [] => .nil

/-- The accesses of UPDATE lines append the bytes they hand over to the message. -/
theorem serveAll_updateLines {ls : List HostLine} {bytes : List Byte} (hls : UpdateLines ls bytes) {s : State}
    {m : List Byte} (h : s.engine.Shows (.absorbing m))
    (hlen : s.params.lengthOverflow = .wrap ∨ 8 * (m.length + bytes.length) < 2 ^ 64) :
    ∃ t : State, serveAll (lineEvents ls) s = .next t ∧ t.engine.Shows (.absorbing (m ++ bytes)) := by
  induction hls generalizing s m with
  | nil => exact ⟨s, rfl, by rwa [List.append_nil]⟩
  | @update cnt data bytes rest ls legal lanes _ ih =>
    subst lanes
    rw [List.length_append] at hlen
    obtain ⟨t, hserve, ht, hparams⟩ := serveAll_updateLine h data legal (hlen.imp_right fun hlt => by omega)
    obtain ⟨u, hserve', hu⟩ := ih ht (by
      rw [hparams, List.length_append, Nat.add_assoc]; exact hlen)
    refine ⟨u, ?_, by rwa [← List.append_assoc]⟩
    rw [lineEvents, List.flatMap_cons, serveAll_append, hserve]
    exact hserve'

/-- Settles O42: INIT leaves an empty message, the lines of UPDATEB append m to it, and FINALIZE publishes the one-shot
digest. -/
theorem hashPseudoInstructionDigestsItsBytes : Obligations.HashPseudoInstructionDigestsItsBytes := by
  intro s m hlen
  obtain ⟨t, hserve, ht⟩ := serveAll_updateLines (updateLines_updateB m)
    (s := s.setEngine s.engine.reinit) (Engine.Shows.reinit s.engine) (by simpa using hlen)
  obtain ⟨u, hexec, hu⟩ := exec_finalize_shows ht
  refine ⟨u, ?_, hu.statusWord, hu.digest⟩
  have hinit : serve (.write .word addrCmd 0x01000000) s = .next (s.setEngine s.engine.reinit) :=
    serve_command (decode_encode (i := .init) rfl) s
  have hfinalize : serve (.write .word addrCmd 0x03000000) t = .next u :=
    (serve_command (decode_encode (i := .finalize) rfl) t).trans hexec
  have hevents : lineEvents (hashLines m) = .write .word addrCmd 0x01000000 ::
      (lineEvents (updateB m) ++ [.write .word addrCmd 0x03000000]) := List.flatMap_append
  rw [hevents, serveAll, hinit]
  calc serveAll (lineEvents (updateB m) ++ [.write .word addrCmd 0x03000000]) (s.setEngine s.engine.reinit)
      = andThen (serve (.write .word addrCmd 0x03000000) t) .next := by rw [serveAll_append, hserve]; rfl
    _ = .next u := by rw [hfinalize]; rfl

end Sys2Proof.Machine

/-! PROOFS. The Word operations on unsigned values and on bits. -/

namespace Sys2Proof.Machine

/-! ### The Word operations on unsigned values -/

/-- R100 as arithmetic. -/
@[simp] theorem toNat_wAdd (x y : Word) : (wAdd x y).toNat = (x.toNat + y.toNat) % 2 ^ 32 :=
  BitVec.toNat_add x y

/-- R104 as arithmetic. -/
@[simp] theorem toNat_wNot (x : Word) : (wNot x).toNat = 0xFFFFFFFF - x.toNat :=
  BitVec.toNat_not

/-- R105 as arithmetic, for every shift amount (D12). -/
@[simp] theorem toNat_wShl (x : Word) (n : Nat) : (wShl x n).toNat = x.toNat * 2 ^ n % 2 ^ 32 := by
  rw [wShl, BitVec.toNat_shiftLeft, Nat.shiftLeft_eq]

/-- R106 as arithmetic, for every shift amount (D12). -/
@[simp] theorem toNat_wLshr (x : Word) (n : Nat) : (wLshr x n).toNat = x.toNat / 2 ^ n := by
  rw [wLshr, BitVec.toNat_ushiftRight, Nat.shiftRight_eq_div_pow]

/-! ### The Word operations on bits -/

@[simp] theorem getLsbD_wAnd (x y : Word) (m : Nat) : (wAnd x y).getLsbD m = (x.getLsbD m && y.getLsbD m) :=
  BitVec.getLsbD_and

@[simp] theorem getLsbD_wOr (x y : Word) (m : Nat) : (wOr x y).getLsbD m = (x.getLsbD m || y.getLsbD m) :=
  BitVec.getLsbD_or

@[simp] theorem getLsbD_wXor (x y : Word) (m : Nat) : (wXor x y).getLsbD m = (x.getLsbD m ^^ y.getLsbD m) :=
  BitVec.getLsbD_xor

/-- The rotation moves bit m to (m + n) mod 32 (R107): a bit that passes bit 31 enters again at bit 0. -/
theorem getLsbD_rotl (x : Word) (n : Fin 32) {m : Nat} (hm : m < 32) :
    (rotl x n).getLsbD ((m + n.val) % 32) = x.getLsbD m := by
  rw [rotl_eq_rotateLeft, BitVec.getLsbD_rotateLeft, Nat.mod_eq_of_lt n.isLt, Bool.cond_decide]
  by_cases hwrap : m + n.val < 32
  · rw [Nat.mod_eq_of_lt hwrap, if_neg (by omega), Nat.add_sub_cancel, decide_eq_true hwrap, Bool.true_and]
  · have hmod : (m + n.val) % 32 = m + n.val - 32 := by omega
    have hback : 32 - n.val + (m + n.val - 32) = m := by omega
    rw [hmod, if_pos (by omega), hback]

/-! ### The domain of the rotation (R107, D12) -/

theorem rotlNat_of_lt (x : Word) {n : Nat} (h : n < 32) : rotlNat x n = some (rotl x ⟨n, h⟩) := dif_pos h

theorem rotlNat_of_le (x : Word) {n : Nat} (h : 32 ≤ n) : rotlNat x n = none := dif_neg (Nat.not_lt.mpr h)

/-- Settles O22: each operation by its rule on unsigned values or on bits. -/
theorem wordOperationsAreUnsignedArithmetic : Obligations.WordOperationsAreUnsignedArithmetic := by
  intro x y n
  refine ⟨toNat_wAdd x y, getLsbD_wAnd x y, getLsbD_wOr x y, getLsbD_wXor x y, toNat_wNot x, toNat_wShl x n,
    toNat_wLshr x n, fun h => ?_, rotlNat_of_le x⟩
  exact ⟨rotl x ⟨n, h⟩, rotlNat_of_lt x h, fun _ => getLsbD_rotl x ⟨n, h⟩⟩

end Sys2Proof.Machine

/-! PROOFS. The codec (41_codec.md). -/

namespace Sys2Proof.Machine

/-! ### encode and the grouping of bytes into Words -/

theorem encodeWords_cons (w : Word) (ws : List Word) : encodeWords (w :: ws) = wordBytes w ++ encodeWords ws :=
  List.flatMap_cons

/-- The first group of the bytes of a Word and of others is that Word (41_codec.md R120, R121). -/
theorem groupWords_wordBytes_append (w : Word) (bs : List Byte) :
    groupWords (wordBytes w ++ bs) = w :: groupWords bs :=
  congrArg (· :: groupWords bs) (bytesWord_wordBytes w)

/-- Grouping undoes encode (41_codec.md R123). -/
@[simp] theorem groupWords_encodeWords (ws : List Word) : groupWords (encodeWords ws) = ws := by
  induction ws with
  | nil => rfl
  | cons w ws ih => rw [encodeWords_cons, groupWords_wordBytes_append, ih]

/-- On whole Words, encode undoes grouping (41_codec.md R124): one to three bytes are no whole Word. -/
theorem encodeWords_groupWords : ∀ {bs : List Byte}, bs.length % 4 = 0 → encodeWords (groupWords bs) = bs
  | [], _ => rfl
  | b0 :: b1 :: b2 :: b3 :: rest, h => by
    have hrest : rest.length % 4 = 0 := (Nat.add_mod_right rest.length 4).symm.trans h
    calc encodeWords (groupWords (b0 :: b1 :: b2 :: b3 :: rest))
        = wordBytes (bytesWord b0 b1 b2 b3) ++ encodeWords (groupWords rest) := encodeWords_cons _ _
      _ = b0 :: b1 :: b2 :: b3 :: rest := by rw [wordBytes_bytesWord, encodeWords_groupWords hrest]; rfl
  | [_], h | [_, _], h | [_, _, _], h => by cases h

/-! ### decode, by the length of its input -/

/-- decode of whole Words is their grouping (41_codec.md R121). -/
theorem decodeWords_of_whole {bs : List Byte} (h : bs.length % 4 = 0) : decodeWords bs = .ok (groupWords bs) :=
  if_neg (not_not_intro h)

/-- decode of any other length raises InvalidCodecLength (41_codec.md R122). -/
theorem decodeWords_of_ragged {bs : List Byte} (h : bs.length % 4 ≠ 0) :
    decodeWords bs = .error (.raised .invalidCodecLength) :=
  if_pos h

/-- Settles O31: encoded Words are whole, and grouping them gives the Words again. -/
theorem decodeOfEncodedWordsIsTheWords : Obligations.DecodeOfEncodedWordsIsTheWords := by
  intro ws
  have hwhole : (encodeWords ws).length % 4 = 0 := by rw [encodeWords_length, Nat.mul_mod_right]
  rw [decodeWords_of_whole hwhole, groupWords_encodeWords]

/-- Settles O32: decode groups the bytes, and encode undoes the grouping. -/
theorem encodeOfDecodedBytesIsTheBytes : Obligations.EncodeOfDecodedBytesIsTheBytes :=
  fun bs h => ⟨groupWords bs, decodeWords_of_whole h, encodeWords_groupWords h⟩

/-! ### The number of a decoded Word -/

/-- A Word is the little-endian number of its lanes (41_codec.md R121). -/
theorem word_toNat_eq_lanes (w : Word) : w.toNat =
    (w.extractLsb' 0 8).toNat + 2 ^ 8 * (w.extractLsb' 8 8).toNat + 2 ^ 16 * (w.extractLsb' 16 8).toNat +
      2 ^ 24 * (w.extractLsb' 24 8).toNat := by
  rw [← bytesWord_toNat, bytesWord_wordBytes]

/-- Byte 4j + m of encoded Words, within their length, is lane m of Word j (41_codec.md R120). -/
theorem encodeWords_getD {ws : List Word} {j m : Nat} (hj : j < ws.length) (hm : m < 4) :
    (encodeWords ws).getD (4 * j + m) 0 = (ws.getD j 0).extractLsb' (8 * m) 8 := by
  rw [List.getD_eq_getElem?_getD, encodeWords_getElem? ws j hm, List.getD_eq_getElem?_getD,
    List.getElem?_eq_getElem hj]
  rfl

/-- Settles O33: the bytes are the encoding of the decoded Words (O32), so bytes 4j to 4j + 3 are the lanes of Word j. -/
theorem decodedWordsAreLittleEndian : Obligations.DecodedWordsAreLittleEndian := by
  intro bs
  refine ⟨decodeWords_of_ragged, fun hwhole => ?_⟩
  obtain ⟨ws, hdecode, rfl⟩ := encodeOfDecodedBytesIsTheBytes bs hwhole
  refine ⟨ws, hdecode, ?_, fun j hj => ?_⟩
  · rw [encodeWords_length, Nat.mul_div_cancel_left _ (by decide)]
  · have hfirst : (encodeWords ws).getD (4 * j) 0 = (ws.getD j 0).extractLsb' 0 8 :=
      encodeWords_getD hj (m := 0) (by decide)
    rw [hfirst, encodeWords_getD hj (m := 1) (by decide), encodeWords_getD hj (m := 2) (by decide),
      encodeWords_getD hj (m := 3) (by decide)]
    exact word_toNat_eq_lanes _

end Sys2Proof.Machine

/-! PROOFS. The transform (42_transform.md): BlockTransform as the 64 STEP instructions, the rows of the step table, and
the four nonlinear functions on bits. -/

namespace Sys2Proof.Machine

/-! ### BlockTransform as a sequence of STEP instructions -/

/-- STEP instructions, in whatever order, apply the step function in that order to the working registers and change
nothing else (42_transform.md R137). -/
theorem execAll_decodeStep (is : List (Fin 64)) : ∀ s : State,
    execAll (is.map fun i => decodeStep (BitVec.ofNat 6 i.val)) s =
      .next (s.setWork (is.foldl (fun q i => stepFn i q s.x) s.work)) := by
  induction is with
  | nil => intro s; rfl
  | cons i is ih =>
    intro s
    rw [List.map_cons, execAll, exec_decodeStep]
    exact ih (s.setWork (stepFn i s.work s.x))

/-- The STEP instructions of indices 0 to 63 run the 64 steps on the working registers (10_state.md R28, R142). -/
theorem execAll_stepInstructions (s : State) :
    execAll ((List.range 64).map fun i => decodeStep (BitVec.ofNat 6 i)) s =
      .next (s.setWork (runSteps s.work s.x)) := by
  rw [← List.map_coe_finRange_eq_range, List.map_map]
  exact execAll_decodeStep stepOrder s

/-- A transform begins with the DigestState in the working registers and the block's Words in x (R142). -/
theorem beginTransform_eq (s : State) {block : List Byte} (h : block.length = 64) :
    s.beginTransform block =
      .ok (((s.setWork s.engine.ds).setX (messageWords (groupWords block))).setSeq (some 0)) := by
  have hwhole : block.length % 4 = 0 := by omega
  rw [State.beginTransform, if_neg (not_not_intro h), decodeWords_of_whole hwhole]

/-- Settles O28: the 64 instructions run the steps of BlockTransform, from the same registers and on the same Words. -/
theorem blockTransformIsTheSixtyFourSteps : Obligations.BlockTransformIsTheSixtyFourSteps := by
  intro s block hlen
  exact ⟨_, _, beginTransform_eq s hlen, rfl, execAll_stepInstructions _, rfl, blockTransform_eq s.engine.ds hlen⟩

/-- Settles O30: the length alone decides. -/
theorem blockTransformRaisesOnAnotherLength : Obligations.BlockTransformRaisesOnAnotherLength :=
  fun q _ => ⟨blockTransform_bad q, fun hlen => ⟨_, blockTransform_eq q hlen⟩⟩

/-! ### The rows of the step table (30_encoding.md R81) -/

/-- The row that the model's decoder and its tables T, S and k give for a step index (R79, R80). -/
def rowOf (i : Fin 64) : Spec.StepRow :=
  ⟨decodeStep (BitVec.ofNat 6 i.val), BitVec.ofNat 6 i.val, msgIndex i, (rotAmount i).val, addConst i⟩

/-- The model's rows of round r, in index order. -/
def roundRows (r : Nat) : List Spec.StepRow := ((List.finRange 64).filter (roundOf · = r)).map rowOf

theorem exists_of_mem_roundRows {r : Nat} {row : Spec.StepRow} (h : row ∈ roundRows r) :
    ∃ i : Fin 64, roundOf i = r ∧ rowOf i = row := by
  simpa [roundRows] using h

theorem tableF_eq : Spec.tableF = roundRows 0 := rfl
theorem tableG_eq : Spec.tableG = roundRows 1 := rfl
theorem tableH_eq : Spec.tableH = roundRows 2 := rfl
theorem tableI_eq : Spec.tableI = roundRows 3 := rfl

/-- fn(r), the nonlinear function of a round by its number (R79). -/
def fnOf (r : Nat) : Word → Word → Word → Word :=
  match r with
  | 0 => fnF
  | 1 => fnG
  | 2 => fnH
  | _ => fnI

theorem roundFn_eq_fnOf (i : Fin 64) : roundFn i = fnOf (roundOf i) := rfl

/-- `MixesBy fn row`: the row's index decodes to its instruction, which mixes the working registers with fn and
the row's k, s and T, and changes nothing else (42_transform.md R138 to R141). -/
def MixesBy (fn : Word → Word → Word → Word) (row : Spec.StepRow) : Prop :=
  ∀ s : State,
    decode (.step row.index) = .ok row.instr ∧
      exec row.instr s = .next
        { s with
          work :=
            { a := s.work.d
              b := (s.work.a + fn s.work.b s.work.c s.work.d + s.x[row.k] + row.t).rotateLeft row.n + s.work.b
              c := s.work.b
              d := s.work.c } }

/-- Every step mixes with the function of its round and the constants of its row (R137). -/
theorem mixesBy_rowOf (i : Fin 64) : MixesBy (roundFn i) (rowOf i) := by
  intro s
  refine ⟨rfl, (exec_decodeStep i s).trans ?_⟩
  rw [stepFn, mixStep, rotl_eq_rotateLeft]
  rfl

theorem mixesBy_of_mem_roundRows (r : Nat) {row : Spec.StepRow} (h : row ∈ roundRows r) : MixesBy (fnOf r) row := by
  obtain ⟨i, rfl, rfl⟩ := exists_of_mem_roundRows h
  rw [← roundFn_eq_fnOf]
  exact mixesBy_rowOf i

/-- Settles O24: the table's rows are the model's rows of round 0. -/
theorem fRoundStepsMixTheWorkingRegisters : Obligations.FRoundStepsMixTheWorkingRegisters :=
  fun _ hrow => mixesBy_of_mem_roundRows 0 (tableF_eq ▸ hrow)

/-- Settles O25: the table's rows are the model's rows of round 1. -/
theorem gRoundStepsMixTheWorkingRegisters : Obligations.GRoundStepsMixTheWorkingRegisters :=
  fun _ hrow => mixesBy_of_mem_roundRows 1 (tableG_eq ▸ hrow)

/-- Settles O26: the table's rows are the model's rows of round 2. -/
theorem hRoundStepsMixTheWorkingRegisters : Obligations.HRoundStepsMixTheWorkingRegisters :=
  fun _ hrow => mixesBy_of_mem_roundRows 2 (tableH_eq ▸ hrow)

/-- Settles O27: the table's rows are the model's rows of round 3. -/
theorem iRoundStepsMixTheWorkingRegisters : Obligations.IRoundStepsMixTheWorkingRegisters :=
  fun _ hrow => mixesBy_of_mem_roundRows 3 (tableI_eq ▸ hrow)

/-! ### The nonlinear functions on bits -/

theorem getLsbD_wNot (x : Word) {n : Nat} (hn : n < 32) : (wNot x).getLsbD n = !x.getLsbD n := by
  rw [wNot, BitVec.getLsbD_not, decide_eq_true hn, Bool.true_and]

/-- F chooses by x between y and z (R130). -/
theorem getLsbD_fnF (x y z : Word) {n : Nat} (hn : n < 32) :
    (fnF x y z).getLsbD n = if x.getLsbD n then y.getLsbD n else z.getLsbD n := by
  rw [fnF, getLsbD_wOr, getLsbD_wAnd, getLsbD_wAnd, getLsbD_wNot x hn]
  cases x.getLsbD n <;> simp

/-- G chooses by z between x and y (R131). -/
theorem getLsbD_fnG (x y z : Word) {n : Nat} (hn : n < 32) :
    (fnG x y z).getLsbD n = if z.getLsbD n then x.getLsbD n else y.getLsbD n := by
  rw [fnG, getLsbD_wOr, getLsbD_wAnd, getLsbD_wAnd, getLsbD_wNot z hn]
  cases z.getLsbD n <;> simp

/-- H is the parity (R132). -/
theorem getLsbD_fnH (x y z : Word) (n : Nat) :
    (fnH x y z).getLsbD n = ((x.getLsbD n ^^ y.getLsbD n) ^^ z.getLsbD n) := by
  rw [fnH, getLsbD_wXor, getLsbD_wXor]

/-- I is y, flipped where x is 1 or z is 0 (R133). -/
theorem getLsbD_fnI (x y z : Word) {n : Nat} (hn : n < 32) :
    (fnI x y z).getLsbD n = (y.getLsbD n ^^ (x.getLsbD n || !z.getLsbD n)) := by
  rw [fnI, getLsbD_wXor, getLsbD_wOr, getLsbD_wNot z hn]

/-- Settles O23: each function by its own rule on bits. -/
theorem nonlinearFunctionsBitByBit : Obligations.NonlinearFunctionsBitByBit :=
  fun x y z n hn => ⟨getLsbD_fnF x y z hn, getLsbD_fnG x y z hn, getLsbD_fnH x y z n, getLsbD_fnI x y z hn⟩

end Sys2Proof.Machine

/-! PROOFS. The streaming engine (43_engine.md): the padding, the counter, the empty update, splits of the input, and the
one-shot digest. -/

namespace Sys2Proof.Machine

/-! ### An update in two parts (43_engine.md R165, R171) -/

@[simp] theorem advanceCounter_zero (cnt : Counter) : advanceCounter cnt 0 = cnt := BitVec.add_zero cnt

/-- An update with no bytes writes nothing to the buffer and leaves the counter (43_engine.md R165). -/
theorem update_nil (e : Engine) : update e [] = .ok e := by
  have hshort : 0 < 64 - fillLevel e.cnt := Nat.sub_pos_of_lt (fillLevel_lt e.cnt)
  simp only [update, List.length_nil, if_pos hshort, bufWrite, advanceCounter_zero]
  rfl

theorem Engine.SameMessage.refl (e : Engine) : e.SameMessage e := ⟨rfl, rfl, rfl, rfl, rfl, rfl, rfl⟩

theorem Engine.SameMessage.trans {e f g : Engine} (h : e.SameMessage f) (k : f.SameMessage g) : e.SameMessage g where
  ds := h.ds.trans k.ds
  cnt := h.cnt.trans k.cnt
  phase := h.phase.trans k.phase
  errcode := h.errcode.trans k.errcode
  data := h.data.trans k.data
  digest := h.digest.trans k.digest
  pending := h.pending.trans k.pending

/-- Two updates leave the message that one update with both inputs leaves (43_engine.md R171). -/
theorem update_append {e e1 e2 : Engine} {s t : List Byte} (hs : update e s = .ok e1) (ht : update e1 t = .ok e2) :
    ∃ e3, update e (s ++ t) = .ok e3 ∧ e2.SameMessage e3 := by
  obtain ⟨b1, hs', hpend1, -⟩ := update_spec e s
  cases hs'.symm.trans hs
  obtain ⟨b2, ht', hpend2, -⟩ := update_spec (updated e s b1) t
  cases ht'.symm.trans ht
  obtain ⟨b3, hst, hpend3, -⟩ := update_spec e (s ++ t)
  have hmerge : updated (updated e s b1) t b2 = updated e (s ++ t) b2 := updated_updated e s t b1 b2 hpend1
  have hpending : (updated e (s ++ t) b2).pendingBytes = (updated e (s ++ t) b3).pendingBytes := by
    rw [← hmerge, hpend2, hpend1, (compressBlocks_stream e.ds (e.pendingBytes ++ s) t).2, hpend3, List.append_assoc]
  exact ⟨_, hst, hmerge ▸ (Engine.SameMessage.refl e).updated (s ++ t) hpending⟩

/-- Any sequence of updates leaves the message that one update with the concatenated bytes leaves, by induction over the
pieces (43_engine.md R171). -/
theorem foldlM_update_sameMessage (pieces : List (List Byte)) : ∀ e : Engine, ∃ e1 e2,
    pieces.foldlM update e = .ok e1 ∧ update e pieces.flatten = .ok e2 ∧ e1.SameMessage e2 := by
  induction pieces with
  | nil => exact fun e => ⟨e, e, rfl, update_nil e, .refl e⟩
  | cons p ps ih =>
    intro e
    obtain ⟨buf, hp, -⟩ := update_spec e p
    obtain ⟨e1, e2, hfold, hrest, hsame⟩ := ih (updated e p buf)
    obtain ⟨e3, hwhole, hsame'⟩ := update_append hp hrest
    refine ⟨e1, e3, ?_, hwhole, hsame.trans hsame'⟩
    rw [List.foldlM_cons, hp]
    exact hfold

/-- The digest finalize answers is read from the DigestState it leaves (43_engine.md R168). -/
theorem finalize_digest {e f : Engine} {d : List Byte} (h : finalize e = .ok (f, d)) : d = digestBytes f.ds := by
  obtain ⟨buf, hf, -⟩ := finalize_spec e
  cases hf.symm.trans h
  rfl

/-- Settles O39: both ways leave the same message, finalize does not see the stale bytes in which they may differ, and
the digest is read from the DigestState. -/
theorem digestDoesNotDependOnTheSplit : Obligations.DigestDoesNotDependOnTheSplit := by
  intro e pieces
  obtain ⟨e1, e2, hfold, hwhole, hsame⟩ := foldlM_update_sameMessage pieces e
  obtain ⟨f1, f2, d1, d2, hf1, hf2, hfsame⟩ := finalize_sameMessage hsame
  have hd : d1 = d2 := by rw [finalize_digest hf1, finalize_digest hf2, hfsame.ds]
  exact ⟨e1, e2, f1, f2, d1, hfold, hwhole, hsame, hf1, hd ▸ hf2⟩

/-! ### The one-shot digest (43_engine.md R169) -/

/-- The engine after reset has absorbed nothing (10_state.md R37). -/
theorem Engine.Holds.reset : Engine.reset.Holds [] := (Engine.Shows.reinit Engine.reset).holds

/-- finalize answers the one-shot digest of the message the engine holds (43_engine.md R168). -/
theorem Engine.Holds.finalize {e : Engine} {m : List Byte} (h : e.Holds m) :
    ∃ f, Machine.finalize e = .ok (f, digestBytes (oneShot m)) := by
  obtain ⟨buf, hf, -⟩ := finalize_spec e
  exact ⟨_, h.updated_trailer_ds buf ▸ hf⟩

/-- Settles O40: the update takes the engine from the empty message to m, and finalize answers the digest of the message
held. -/
theorem hashIsTheOneShotDigest : Obligations.HashIsTheOneShotDigest := by
  intro m
  obtain ⟨buf, hu, -⟩ := update_spec Engine.reset m
  obtain ⟨f, hf⟩ := (Engine.Holds.reset.update hu).finalize
  rw [List.nil_append] at hf
  simp only [hashMessage, hu, hf]

/-! ### The counter, and the policy on its overflow (43_engine.md R161) -/

theorem lengthOverflows_iff (cnt : Counter) (len : Nat) :
    lengthOverflows cnt len = true ↔ 2 ^ 64 ≤ cnt.toNat + 8 * len := decide_eq_true_iff

/-- A legal CNT hands over as many bytes of DATA as it says (30_encoding.md R75). -/
theorem dataBytes_length_of_legal (data : Word) {cnt : BitVec 3} (h : cnt.toNat ≤ 4) :
    (dataBytes data cnt).length = cnt.toNat := by
  rw [dataBytes_length, Nat.min_eq_left h]

/-- UPDATE in phase ACTIVE where the policy refuses it (43_engine.md R161, D11). -/
theorem execUpdate_refused {s : State} {cnt : BitVec 3} (hp : s.engine.phase = .active) (hc : cnt.toNat ≤ 4)
    (ho : lengthOverflows s.engine.cnt (dataBytes s.engine.data cnt).length ∧ s.params.lengthOverflow = .refuse) :
    execUpdate cnt s = .refused .lengthOverflow := by
  simp only [execUpdate, hp, if_pos hc, absorb, if_pos ho]

/-- Settles O10: under refuse the policy's branch is taken; under wrap the sum, which is below 2^65, is reduced once. -/
theorem lengthOverflowFollowsThePolicy : Obligations.LengthOverflowFollowsThePolicy := by
  intro s cnt hp hc hover
  have hlen := dataBytes_length_of_legal s.engine.data hc
  constructor
  · intro hrefuse
    exact execUpdate_refused hp hc ⟨by rwa [lengthOverflows_iff, hlen], hrefuse⟩
  · intro hwrap
    obtain ⟨buf, hexec, -⟩ := execUpdate_active hp hc fun ho => by cases hwrap.symm.trans ho.2
    refine ⟨_, hexec, (advanceCounter_toNat _ _).trans ?_⟩
    rw [hlen]
    omega

/-- Settles O36: the counter update leaves is the advanced one, and the fill level is derived from it. -/
theorem counterAndFillLevelAdvanceExactly : Obligations.CounterAndFillLevelAdvanceExactly := by
  intro e input
  obtain ⟨buf, hu, -⟩ := update_spec e input
  have hfill : fillLevel (updated e input buf).cnt = (fillLevel e.cnt + input.length) % 64 := fillLevel_advance _ _
  exact ⟨_, hu, advanceCounter_toNat _ _, hfill, by rw [pendingBytes_length, hfill]⟩

/-- UPDATE with CNT 0 never takes the count to 2^64, so no policy refuses it. -/
theorem lengthOverflows_zero (cnt : Counter) : ¬ lengthOverflows cnt 0 = true := by
  rw [lengthOverflows_iff]
  exact Nat.not_le_of_lt cnt.isLt

/-- Settles O7: UPDATE with CNT 0 absorbs no bytes, and an update with no bytes changes nothing. -/
theorem emptyUpdateIsANoOp : Obligations.EmptyUpdateIsANoOp := by
  refine ⟨update_nil, fun s hp => ?_⟩
  obtain ⟨buf, hexec, hu⟩ := execUpdate_active (cnt := 0) hp (by decide) fun ho => lengthOverflows_zero _ ho.1
  have hsame : updated s.engine (dataBytes s.engine.data 0) buf = s.engine :=
    Except.ok.inj (hu.symm.trans (update_nil s.engine))
  rw [hsame] at hexec
  exact hexec

/-! ### The padding (43_engine.md R166, R167) -/

/-- Settles O37: the bounds of padLen, and PADDING cut to it. -/
theorem paddingLengthFollowsItsFormula : Obligations.PaddingLengthFollowsItsFormula := by
  refine ⟨fun index h => ?_, rfl, rfl, rfl, rfl⟩
  obtain ⟨hpos, hle, -⟩ := padLen_bounds h
  exact ⟨rfl, hpos, hle, padding_take hpos hle⟩

/-- Settles O38: padLen completes the fill level n mod 64 to whole blocks, less the eight bytes of the length; the two
forms agree because padLen is at least 1. -/
theorem paddedLengthIsWholeBlocks : Obligations.PaddedLengthIsWholeBlocks := by
  intro n
  obtain ⟨hpos, -, hwhole⟩ := padLen_bounds (Nat.mod_lt n (by decide : 0 < 64))
  exact ⟨by omega, ⟨_, rfl, by omega⟩, rfl⟩

end Sys2Proof.Machine

/-! PROOFS. The commands (44_commands.md): what UPDATE and FINALIZE answer, the session a host sees, the frames, and the
step that serves an access. -/

namespace Sys2Proof.Machine

/-! ### What UPDATE and FINALIZE answer -/

/-- What UPDATE can answer, and when: `UpdateAnswer s cnt o` when `o` is the outcome of UPDATE with `cnt` in `s`
(44_commands.md R193, 60_exceptions.md R225 to R227). -/
inductive UpdateAnswer (s : State) (cnt : BitVec 3) : Host.Outcome State Fault Refusal → Prop where
  | ignored (failed : s.engine.phase = .error) : UpdateAnswer s cnt (.next s)
  | afterFinalize (done : s.engine.phase = .done) (legal : cnt.toNat ≤ 4) :
      UpdateAnswer s cnt (.next (s.raise .useAfterFinalize))
  | illegal (live : s.engine.phase ≠ .error) (excess : 4 < cnt.toNat) :
      UpdateAnswer s cnt (.next (s.raise .illegalCommand))
  | refused (active : s.engine.phase = .active) (legal : cnt.toNat ≤ 4) :
      UpdateAnswer s cnt (.refused .lengthOverflow)
  | absorbed (buf : Memory) (active : s.engine.phase = .active) (legal : cnt.toNat ≤ 4)
      (done : update s.engine (dataBytes s.engine.data cnt) =
        .ok (updated s.engine (dataBytes s.engine.data cnt) buf)) :
      UpdateAnswer s cnt (.next (s.setEngine (updated s.engine (dataBytes s.engine.data cnt) buf)))

/-- UPDATE by its phase, its CNT and the policy. -/
theorem execUpdate_answer (s : State) (cnt : BitVec 3) : UpdateAnswer s cnt (execUpdate cnt s) := by
  cases hp : s.engine.phase with
  | error =>
    rw [execUpdate, hp]
    exact .ignored hp
  | done =>
    rw [execUpdate, hp]
    by_cases hc : cnt.toNat ≤ 4
    · simp only [if_pos hc]
      exact .afterFinalize hp hc
    · simp only [if_neg hc]
      exact .illegal (by simp [hp]) (by omega)
  | active =>
    by_cases hc : cnt.toNat ≤ 4
    · by_cases ho : lengthOverflows s.engine.cnt (dataBytes s.engine.data cnt).length ∧
          s.params.lengthOverflow = .refuse
      · rw [execUpdate_refused hp hc ho]
        exact .refused hp hc
      · obtain ⟨buf, hexec, hu⟩ := execUpdate_active hp hc ho
        rw [hexec]
        exact .absorbed buf hp hc hu
    · rw [execUpdate, hp]
      simp only [if_neg hc]
      exact .illegal (by simp [hp]) (by omega)

/-- What FINALIZE can answer, and when (44_commands.md R194, 60_exceptions.md R225, R227). -/
inductive FinalizeAnswer (s : State) : Host.Outcome State Fault Refusal → Prop where
  | ignored (failed : s.engine.phase = .error) : FinalizeAnswer s (.next s)
  | afterFinalize (done : s.engine.phase = .done) : FinalizeAnswer s (.next (s.raise .useAfterFinalize))
  | finished (buf : Memory) (active : s.engine.phase = .active)
      (done : finalize s.engine = .ok (updated s.engine (trailer s.engine) buf,
        digestBytes (updated s.engine (trailer s.engine) buf).ds)) :
      FinalizeAnswer s (.next (s.setEngine (updated s.engine (trailer s.engine) buf).publish))

/-- FINALIZE by its phase. -/
theorem execFinalize_answer (s : State) : FinalizeAnswer s (execFinalize s) := by
  cases hp : s.engine.phase with
  | error =>
    rw [execFinalize, hp]
    exact .ignored hp
  | done =>
    rw [execFinalize, hp]
    exact .afterFinalize hp
  | active =>
    obtain ⟨buf, hexec, hf⟩ := execFinalize_active hp
    rw [hexec]
    exact .finished buf hp hf

/-! ### The session a host sees (44_commands.md R199) -/

/-- The phase in which the engine shows a session (10_state.md R26). -/
def Session.phase : Session → Phase
  | .absorbing _ => .active
  | .finished _ => .done
  | .failed _ => .error

theorem Engine.Shows.phase {e : Engine} {g : Session} (h : e.Shows g) : e.phase = g.phase := by
  cases g <;> exact h.1

/-- No session depends on DATA (44_commands.md R195). -/
theorem Engine.Shows.setData_any {e : Engine} {g : Session} (h : e.Shows g) (v : Word) : (e.setData v).Shows g := by
  cases g with
  | absorbing m => exact Engine.Shows.setData h v
  | finished m => exact h
  | failed k => exact h

/-- Error entry shows the failure, whatever the engine showed (60_exceptions.md R224). -/
theorem Engine.Shows.raise (e : Engine) (k : ErrorKind) : (e.raise k).Shows (.failed k) := ⟨rfl, rfl⟩

theorem Session.command_nop (data : Word) (g : Session) : g.command data 0x00000000 = g := by
  cases g <;> rfl

theorem Session.command_init (data : Word) (g : Session) : g.command data 0x01000000 = .absorbing [] := rfl

theorem Session.command_finalize (data : Word) (g : Session) :
    g.command data 0x03000000 =
      match g with
      | .absorbing m => .finished m
      | .finished _ => .failed .useAfterFinalize
      | .failed k => .failed k := by
  cases g <;> rfl

/-- What the word of UPDATE does to a session: it hands over the bytes it takes from DATA (44_commands.md R193). -/
theorem Session.command_update (data : Word) {cnt : BitVec 3} (hcnt : cnt.toNat ≤ 4) (g : Session) :
    g.command data (0x02000000 + cnt.setWidth 32) =
      match g with
      | .absorbing m => .absorbing (m ++ dataBytes data cnt)
      | .finished _ => .failed .useAfterFinalize
      | .failed k => .failed k := by
  have hword : ∀ c : BitVec 3, c.toNat ≤ 4 → ∀ w : Word, w = 0x02000000 + c.setWidth 32 →
      w ≠ 0x01000000 ∧ w ≠ 0x00000000 ∧ w ≠ 0x03000000 ∧ (0x02000000 ≤ w ∧ w ≤ 0x02000004) ∧
        w.toNat - 0x02000000 = c.toNat := by
    rintro c hc w rfl
    revert c; decide
  obtain ⟨hinit, hnop, hfin, hupd, hlanes⟩ := hword cnt hcnt _ rfl
  cases g with
  | absorbing m => simp only [Session.command, if_neg hinit, if_neg hnop, if_neg hfin, if_pos hupd, hlanes, dataBytes]
  | finished m => simp only [Session.command, if_neg hinit, if_neg hnop, if_pos (Or.inr hupd)]
  | failed k => simp only [Session.command, if_neg hinit]

/-- An illegal word fails a session that has not failed before (60_exceptions.md R222, R225). -/
theorem Session.command_illegal (data : Word) {w : Word} (hw : ¬ ∃ i, decode (.cmd w) = .ok i) (g : Session) :
    g.command data w =
      match g with
      | .absorbing _ | .finished _ => .failed .illegalCommand
      | .failed k => .failed k := by
  rw [legalWord_iff, not_or, not_or, not_or] at hw
  obtain ⟨hnop, hinit, hupd, hfin⟩ := hw
  have hnop : w ≠ 0x00000000 := fun h => hnop (congrArg BitVec.toNat h)
  have hinit : w ≠ 0x01000000 := fun h => hinit (congrArg BitVec.toNat h)
  have hfin : w ≠ 0x03000000 := fun h => hfin (congrArg BitVec.toNat h)
  have hupd : ¬(0x02000000 ≤ w ∧ w ≤ 0x02000004) := hupd
  cases g with
  | absorbing m => simp only [Session.command, if_neg hinit, if_neg hnop, if_neg hfin, if_neg hupd]
  | finished m => simp only [Session.command, if_neg hinit, if_neg hnop, if_neg (not_or.mpr ⟨hfin, hupd⟩)]
  | failed k => simp only [Session.command, if_neg hinit]

/-- UPDATE keeps the engine showing the host's session. -/
theorem execUpdate_shows {s t : State} {g : Session} {cnt : BitVec 3} (hg : s.engine.Shows g) (hcnt : cnt.toNat ≤ 4)
    (h : execUpdate cnt s = .next t) :
    t.engine.Shows (g.command s.engine.data (0x02000000 + cnt.setWidth 32)) := by
  have hanswer := execUpdate_answer s cnt
  rw [h] at hanswer
  rw [Session.command_update _ hcnt]
  have hphase := hg.phase
  cases g with
  | absorbing m =>
    cases hanswer with
    | absorbed buf _ _ done => exact hg.update done
    | illegal _ excess => omega
    | ignored hp | afterFinalize hp => cases hphase.symm.trans hp
  | finished m =>
    cases hanswer with
    | afterFinalize => exact Engine.Shows.raise _ _
    | illegal _ excess => omega
    | ignored hp | absorbed _ hp => cases hphase.symm.trans hp
  | failed k =>
    cases hanswer with
    | ignored => exact hg
    | illegal _ excess => omega
    | afterFinalize hp | absorbed _ hp => cases hphase.symm.trans hp

/-- FINALIZE keeps the engine showing the host's session. -/
theorem execFinalize_shows {s t : State} {g : Session} (hg : s.engine.Shows g) (h : execFinalize s = .next t) :
    t.engine.Shows (g.command s.engine.data 0x03000000) := by
  have hanswer := execFinalize_answer s
  rw [h] at hanswer
  rw [Session.command_finalize]
  have hphase := hg.phase
  cases g with
  | absorbing m =>
    cases hanswer with
    | finished buf => exact hg.publish buf
    | ignored hp | afterFinalize hp => cases hphase.symm.trans hp
  | finished m =>
    cases hanswer with
    | afterFinalize => exact Engine.Shows.raise _ _
    | ignored hp | finished _ hp => cases hphase.symm.trans hp
  | failed k =>
    cases hanswer with
    | ignored => exact hg
    | afterFinalize hp | finished _ hp => cases hphase.symm.trans hp

/-- A write of an illegal word to CMD keeps the engine showing the host's session (60_exceptions.md R222, R225). -/
theorem illegalCommand_shows {s : State} {g : Session} {w : Word} (hg : s.engine.Shows g)
    (hw : ¬ ∃ i, decode (.cmd w) = .ok i) :
    (illegalCommand s).engine.Shows (g.command s.engine.data w) := by
  rw [Session.command_illegal _ hw, illegalCommand, hg.phase]
  cases g with
  | absorbing m | finished m => exact Engine.Shows.raise _ _
  | failed k => exact hg

/-- A write to CMD of any word keeps the engine showing the host's session (44_commands.md R190). -/
theorem commandWrite_shows {s t : State} {g : Session} {w : Word} (hg : s.engine.Shows g)
    (h : commandWrite w s = .next t) : t.engine.Shows (g.command s.engine.data w) := by
  rw [commandWrite] at h
  cases hd : decode (.cmd w) with
  | error r =>
    rw [hd] at h
    cases h
    exact illegalCommand_shows hg (by simp [hd])
  | ok i =>
    rw [hd] at h
    rcases (decodeCmd_iff w i).mp hd with ⟨rfl, rfl⟩ | ⟨rfl, rfl⟩ | ⟨cnt, hcnt, rfl, rfl⟩ | ⟨rfl, rfl⟩
    · cases h
      rwa [Session.command_nop]
    · cases h
      rw [Session.command_init]
      exact Engine.Shows.reinit _
    · exact execUpdate_shows hg hcnt h
    · exact execFinalize_shows hg h

/-- Settles O41: a write to CMD follows Session.command, the reset input leaves the empty message, and every other event
leaves all fields of the engine but DATA. -/
theorem engineShowsTheHostsSession : Obligations.EngineShowsTheHostsSession := by
  intro s t g ev hg h
  rcases serve_inv h with ⟨w, rfl, hc⟩ | ⟨v, rfl, rfl⟩ | ⟨a, v, rfl, hcmd, -, rfl⟩ | ⟨a, rfl, rfl⟩ | ⟨rfl, rfl⟩
  · exact commandWrite_shows hg hc
  · exact hg.setData_any v
  · rw [Session.event, if_neg (show a ≠ addrCmd from hcmd)]
    exact hg
  · exact hg
  · exact Engine.Shows.reinit _

end Sys2Proof.Machine

/-! PROOFS. What UPDATE and FINALIZE do to the message, and their frames. -/

namespace Sys2Proof.Machine

/-! ### UPDATE in phase ACTIVE (44_commands.md R193) -/

/-- The bytes of DATA that a legal CNT hands over, lane by lane (30_encoding.md R75). -/
theorem dataBytes_eq_lanes (data : Word) {cnt : BitVec 3} (h : cnt.toNat ≤ 4) :
    dataBytes data cnt = (List.range cnt.toNat).map fun m => data.extractLsb' (8 * m) 8 := by
  rw [dataBytes, wordBytes_eq_lanes, ← List.map_take, List.take_range, Nat.min_eq_left h]

/-- Compressing one block and then n blocks of what follows it. -/
theorem compressBlocks_succ_append (n : Nat) (q : Quad) {block : List Byte} (h : block.length = 64)
    (rest : List Byte) :
    compressBlocks (n + 1) q (block ++ rest) = compressBlocks n (compressBlock q block) rest := by
  rw [compressBlocks, List.take_left' h, List.drop_left' h]

/-- The DigestState after an update that completes one block (43_engine.md R162). -/
theorem blockTransform_updated_ds {e : Engine} {input block rest : List Byte} (buf : Memory)
    (h : e.pendingBytes ++ input = block ++ rest) (hblock : block.length = 64) (hrest : rest.length < 64) :
    blockTransform e.ds block = .ok (updated e input buf).ds := by
  have hone : (block ++ rest).length / 64 = 1 := by rw [List.length_append]; omega
  rw [updated, h, hone, compressBlocks_succ_append 0 e.ds hblock, compressBlocks, blockTransform_eq e.ds hblock]

/-- The DigestState after an update that completes two blocks and leaves no byte (43_engine.md R162, R163). -/
theorem blockTransform_updated_ds_two {e : Engine} {input first second : List Byte} (buf : Memory)
    (h : e.pendingBytes ++ input = first ++ second) (hfirst : first.length = 64) (hsecond : second.length = 64) :
    blockTransform (compressBlock e.ds first) second = .ok (updated e input buf).ds := by
  have htwo : (first ++ second).length / 64 = 2 := by rw [List.length_append, hfirst, hsecond]
  rw [updated, h, htwo, compressBlocks_succ_append 1 e.ds hfirst, compressBlocks, compressBlocks,
    List.take_of_length_le hsecond.le, blockTransform_eq _ hsecond]

/-- Settles O5: a fill level below 64 and at most four bytes complete at most one block. -/
theorem updateAbsorbsTheLanesOfData : Obligations.UpdateAbsorbsTheLanesOfData := by
  intro s cnt hp hc hlen bytes fed
  have hbytes : dataBytes s.engine.data cnt = bytes := dataBytes_eq_lanes _ hc
  have hcount : bytes.length = cnt.toNat := by simp [bytes]
  have hallowed : ¬(lengthOverflows s.engine.cnt bytes.length ∧ s.params.lengthOverflow = .refuse) := by
    rw [hcount, lengthOverflows_iff]
    rintro ⟨hover, hrefuse⟩
    rcases hlen with hlt | hwrap
    · omega
    · cases hwrap.symm.trans hrefuse
  rw [← hbytes] at hallowed
  obtain ⟨buf, hexec, hu⟩ := execUpdate_active hp hc hallowed
  obtain ⟨buf', hu', hpending, -⟩ := update_spec s.engine (dataBytes s.engine.data cnt)
  rw [← Except.ok.inj (hu.symm.trans hu')] at hpending
  rw [hbytes] at hexec hpending
  change (updated s.engine bytes buf).pendingBytes = fed.drop (64 * (fed.length / 64)) at hpending
  refine ⟨_, hexec, by rw [← hcount]; rfl, fun hshort => ?_, fun hfull => ?_⟩
  · have hzero : fed.length / 64 = 0 := Nat.div_eq_of_lt hshort
    rw [hzero] at hpending
    exact ⟨congrArg (compressBlocks · s.engine.ds fed) hzero, hpending⟩
  · have hfed : fed.length = fillLevel s.engine.cnt + cnt.toNat := by simp [fed, bytes]
    have hfill := fillLevel_lt s.engine.cnt
    have hone : fed.length / 64 = 1 := by omega
    rw [hone] at hpending
    refine ⟨blockTransform_updated_ds buf (List.take_append_drop 64 fed).symm ?_ ?_, hpending⟩
    · rw [List.length_take]; omega
    · rw [List.length_drop]; omega

/-- The offsets of the buffer that update leaves alone (43_engine.md R162, R164). -/
theorem update_byteAt {e e' : Engine} {input : List Byte} (h : update e input = .ok e') {j : Nat}
    (hj : ∀ m, m < input.length → j ≠ (fillLevel e.cnt + m) % 64) : e'.buf.byteAt j = e.buf.byteAt j := by
  obtain ⟨buf, hu, -, hframe, -⟩ := update_spec e input
  cases hu.symm.trans h
  exact hframe j hj

/-- The offsets of the buffer that finalize leaves alone (43_engine.md R168). -/
theorem finalize_byteAt {e e' : Engine} {d : List Byte} (h : finalize e = .ok (e', d)) {j : Nat}
    (hj : ∀ m, m < padLen (fillLevel e.cnt) + 8 → j ≠ (fillLevel e.cnt + m) % 64) :
    e'.buf.byteAt j = e.buf.byteAt j := by
  obtain ⟨buf, hf, -, -, hframe, -⟩ := finalize_spec e
  cases hf.symm.trans h
  rw [← trailer_length] at hj
  exact hframe j hj

/-- Settles O6: by what UPDATE can answer; only absorbed bytes touch the message. -/
theorem updateStoresOnlyItsBytes : Obligations.UpdateStoresOnlyItsBytes := by
  intro s t cnt h
  have hanswer : UpdateAnswer s cnt (.next t) := h ▸ execUpdate_answer s cnt
  cases hanswer with
  | ignored hp | afterFinalize hp =>
    exact ⟨rfl, fun hactive => (by cases hp.symm.trans hactive), fun _ => ⟨rfl, rfl, rfl⟩, fun _ _ => rfl⟩
  | illegal _ hc =>
    exact ⟨rfl, fun _ hlegal => absurd hc (Nat.not_lt.mpr hlegal), fun _ => ⟨rfl, rfl, rfl⟩, fun _ _ => rfl⟩
  | absorbed buf hp hc hu =>
    refine ⟨rfl, fun _ _ => ⟨rfl, rfl⟩, fun hnot => ?_, fun j hj => update_byteAt hu ?_⟩
    · rcases hnot with hnot | hnot
      · exact absurd hp hnot
      · exact absurd hc (Nat.not_le.mpr hnot)
    · rwa [dataBytes_length_of_legal _ hc]

/-! ### FINALIZE in phase ACTIVE (44_commands.md R194) -/

/-- The trailer, in the form of 43_engine.md R166 to R168. -/
theorem trailer_eq (e : Engine) :
    trailer e = 0x80 :: List.replicate (padLen (fillLevel e.cnt) - 1) 0x00 ++
      (List.range 8).map fun m => e.cnt.extractLsb' (8 * m) 8 := by
  obtain ⟨hpos, hle, -⟩ := padLen_bounds (fillLevel_lt e.cnt)
  rw [trailer, padding_take hpos hle, lengthFieldIsTheCountLittleEndian]

/-- Settles O8: with the pending bytes the trailer makes 64 bytes below fill level 56 and 128 from there on. -/
theorem finalizePadsAndPublishesTheDigest : Obligations.FinalizePadsAndPublishesTheDigest := by
  intro s hp index bits
  obtain ⟨buf, hexec, -⟩ := execFinalize_active hp
  have htrailer : trailer s.engine = 0x80 :: List.replicate (padLen index - 1) 0x00 ++ bits := trailer_eq s.engine
  have hpending : s.engine.pendingBytes.length = index := pendingBytes_length s.engine
  have hbits : bits.length = 8 := by simp [bits]
  have hindex : index < 64 := fillLevel_lt s.engine.cnt
  refine ⟨_, hexec, rfl, rfl, fun hone => ?_, fun htwo => ?_⟩
  · have hpad : padLen index - 1 = 55 - index := by rw [padLen, if_pos hone]; omega
    refine blockTransform_updated_ds (rest := []) buf ?_ ?_ (by decide)
    · rw [htrailer, hpad, List.append_nil, List.append_assoc]
    · simp only [List.length_append, List.length_cons, List.length_replicate, hpending, hbits]
      omega
  · have hpad : padLen index - 1 = (63 - index) + 56 := by rw [padLen, if_neg (Nat.not_lt.mpr htwo)]; omega
    have hfirst : (s.engine.pendingBytes ++ 0x80 :: List.replicate (63 - index) 0x00).length = 64 := by
      simp only [List.length_append, List.length_cons, List.length_replicate, hpending]
      omega
    refine ⟨_, blockTransform_eq s.engine.ds hfirst, blockTransform_updated_ds_two buf ?_ hfirst ?_⟩
    · rw [htrailer, hpad, List.replicate_add]
      simp only [List.append_assoc, List.cons_append]
    · rw [List.length_append, List.length_replicate, hbits]

/-- Settles O9: by what FINALIZE can answer; only a finished message is touched. -/
theorem finalizeStoresOnlyItsTrailer : Obligations.FinalizeStoresOnlyItsTrailer := by
  intro s t h
  have hanswer : FinalizeAnswer s (.next t) := h ▸ execFinalize_answer s
  cases hanswer with
  | ignored hp | afterFinalize hp =>
    exact ⟨rfl, fun hactive => (by cases hp.symm.trans hactive), fun _ => ⟨rfl, rfl, rfl, rfl⟩, fun _ _ => rfl⟩
  | finished buf hp hf =>
    exact ⟨rfl, fun _ => ⟨rfl, by rw [← trailer_length]; rfl⟩, fun hnot => absurd hp hnot,
      fun j hj => finalize_byteAt hf hj⟩

end Sys2Proof.Machine

/-! PROOFS. What the step that serves one access answers: the commands, DATA and the registers read. -/

namespace Sys2Proof.Machine

/-! ### A step completes or is refused by a policy (44_commands.md R190) -/

/-- A write to CMD completes, or it is an UPDATE that the policy refuses (43_engine.md R161, D11). -/
theorem commandWrite_total (w : Word) (s : State) :
    (∃ t, commandWrite w s = .next t) ∨
      (commandWrite w s = .refused .lengthOverflow ∧
        (∃ cnt : BitVec 3, cnt.toNat ≤ 4 ∧ w = 0x02000000 + cnt.setWidth 32) ∧ s.engine.phase = .active ∧
          s.params.lengthOverflow = .refuse ∧ 2 ^ 64 ≤ s.engine.cnt.toNat + 32) := by
  rcases commandWrite_cases w s with hc | ⟨-, hc⟩ | ⟨-, -, hc | ⟨-, hc⟩⟩ |
      ⟨hp, cnt, hcnt, hw, ⟨_, -, hc⟩ | ⟨hrefuse, hover, hc⟩⟩ | ⟨-, -, _, -, hc⟩
  case inr.inr.inr.inl.inr =>
    rw [lengthOverflows_iff, dataBytes_length_of_legal _ hcnt] at hover
    exact .inr ⟨hc, ⟨cnt, hcnt, hw⟩, hp, hrefuse, by omega⟩
  all_goals exact .inl ⟨_, hc⟩

/-- An access the engine does not serve is not 32 bits wide, or not aligned (20_memory.md R58). -/
theorem not_fullAccess {width : Width} {addr : BitVec 5} (h : ¬ fullAccess width addr = true) :
    width ≠ .word ∨ addr.toNat % 4 ≠ 0 := by
  rwa [fullAccess_iff, Decidable.not_and_iff_not_or_not] at h

/-- Settles O16: a transform's step, an idle step, a read and the reset input complete; so does a write,
but for an UPDATE that the policy refuses; and an access that is not 32 bits wide and aligned is refused. -/
theorem onlyAPolicyRefusesAStep : Obligations.OnlyAPolicyRefusesAStep := by
  intro s
  cases hs : s.seq with
  | some i => exact .inl ⟨_, step_transform hs⟩
  | none =>
    cases hp : s.pending with
    | nil => exact .inl ⟨_, step_idle hs hp⟩
    | cons ev rest =>
      have hn := nextIs_of_pending hs hp
      rw [step_event hs hp]
      cases ev with
      | reset => exact .inl ⟨_, rfl⟩
      | read width addr =>
        by_cases hfull : fullAccess width addr = true
        · exact .inl ⟨_, if_pos hfull⟩
        · exact .inr (.inl ⟨(if_neg hfull).trans (subwordAccess_eq _), width, addr, not_fullAccess hfull, .inl hn⟩)
      | write width addr v =>
        by_cases hfull : fullAccess width addr = true
        · rw [serve, if_pos hfull, busWrite]
          split
          · next hcmd =>
            subst hcmd
            obtain ⟨rfl, -⟩ := (fullAccess_iff _ _).mp hfull
            rcases commandWrite_total v (s.setPending rest) with hnext | ⟨href, ⟨cnt, hcnt, rfl⟩, hpolicy⟩
            · exact .inl hnext
            · exact .inr (.inr ⟨href, ⟨cnt, hcnt, hn⟩, hpolicy⟩)
          · split <;> exact .inl ⟨_, rfl⟩
        · exact .inr (.inl ⟨(if_neg hfull).trans (subwordAccess_eq _), width, addr, not_fullAccess hfull,
            .inr ⟨v, hn⟩⟩)

/-! ### NOP and INIT -/

/-- Settles O2: the words that decode are the legal ones, and of these only 0 decodes to NOP and is below 2^24. -/
theorem nopChangesNothing : Obligations.NopChangesNothing := by
  refine ⟨fun _ => rfl, fun w => ⟨?_, fun hopc hne => ?_⟩⟩
  · constructor
    · intro h
      rcases (decodeCmd_iff w .nop).mp h with ⟨hw, -⟩ | ⟨-, hi⟩ | ⟨_, -, -, hi⟩ | ⟨-, hi⟩
      · exact hw
      all_goals cases hi
    · rintro rfl
      exact decode_encode (i := .nop) rfl
  · cases hd : decode (.cmd w) with
    | error r => exact ⟨r, rfl⟩
    | ok i =>
      have hlegal := (legalWord_iff w).mp ⟨i, hd⟩
      have hpos : w.toNat ≠ 0 := fun h => hne (BitVec.eq_of_toNat_eq h)
      omega

/-- Settles O3: INIT writes the fields of a reinitialisation, whose initial DigestState is the spec's. -/
theorem initReinitialisesTheEngine : Obligations.InitReinitialisesTheEngine := fun _ => rfl

/-! ### STATUS -/

/-- Settles O44: the invariant ties the error code to the phase and leaves codes 3 and 4 in ERROR. -/
theorem statusOfAReachableStateIsOneOfFour : Obligations.StatusOfAReachableStateIsOneOfFour := by
  intro e hinv
  have hcode (h : e.phase ≠ .error) : e.errcode = 0 := by_contra fun hne => h (hinv.error_iff.mpr hne)
  cases hp : e.phase with
  | active | done =>
    rw [statusWord, hp, hcode (by simp [hp])]
    rfl
  | error =>
    have hne := hinv.error_iff.mp hp
    rcases hinv.code_range with h | h | h
    · exact absurd h hne
    · exact .inl (by rw [statusWord, hp, h]; rfl)
    · exact .inr (by rw [statusWord, hp, h]; rfl)

/-! ### The steps that serve an access -/

/-- A read, whatever follows it (20_memory.md R60). -/
theorem step_read {s : State} {addr : BitVec 5} {rest : List HostEvent} (hs : s.seq = none)
    (hfull : fullAccess .word addr = true) (hp : s.pending = .read .word addr :: rest) :
    step s = .next (busRead addr (s.setPending rest)) := by
  rw [step_event hs hp, serve, if_pos hfull]

/-- Settles O45: each address reads its register, and the first read leaves the engine for the second one. -/
theorem readsReturnTheRegisterAndChangeNothing : Obligations.ReadsReturnTheRegisterAndChangeNothing := by
  intro s addr hs p hmem haddr
  have hregister : fullAccess .word addr = true ∧ busReadValue addr s.engine = p.2 := by
    subst haddr
    simp only [List.mem_cons, List.not_mem_nil, or_false] at hmem
    rcases hmem with rfl | rfl | rfl | rfl | rfl | rfl | rfl | rfl <;>
      (dsimp only; exact ⟨rfl, rfl⟩)
  obtain ⟨hfull, hvalue⟩ := hregister
  rw [← hvalue]
  refine ⟨fun rest hp => step_read hs hfull hp, fun rest hp => ?_⟩
  have hfirst := step_read hs hfull hp
  have hsecond := step_read (s := busRead addr (s.setPending (.read .word addr :: rest))) hs hfull rfl
  calc stepMany 2 s
      = andThen (step (busRead addr (s.setPending (.read .word addr :: rest)))) .next := by rw [stepMany, hfirst]; rfl
    _ = .next ((s.setPending rest).setReads
          (s.reads ++ [busReadValue addr s.engine] ++ [busReadValue addr s.engine])) := by rw [hsecond]; rfl
    _ = .next ((s.setPending rest).setReads
          (s.reads ++ [busReadValue addr s.engine, busReadValue addr s.engine])) := by rw [List.append_assoc]; rfl

/-- Settles O47: 0x04 is the address of DATA. -/
theorem dataWriteSetsDataAlone : Obligations.DataWriteSetsDataAlone :=
  fun _ _ _ hs hp => step_event hs hp

/-- The step that serves a write to CMD (44_commands.md R190). -/
theorem step_command {s : State} {w : Word} {i : Instr} {rest : List HostEvent} (hd : decode (.cmd w) = .ok i)
    (hs : s.seq = none) (hp : s.pending = .write .word addrCmd w :: rest) : step s = exec i (s.setPending rest) :=
  (step_event hs hp).trans (serve_command hd _)

/-- Settles O49: withFetchWord puts the write at the head of the accesses that wait, and serving it takes it off. -/
theorem commandStepRunsTheDecodedInstruction : Obligations.CommandStepRunsTheDecodedInstruction := by
  intro s w i hd
  refine ⟨fun rest hs hp => step_command hd hs hp, ?_⟩
  have hplace : s.withFetchWord 32 w.toNat = placeNext s (.cmd w) := by
    rw [State.withFetchWord, Encoded.ofTableWord, if_neg (by decide), BitVec.ofNat_toNat, BitVec.setWidth_eq]
  rw [hplace, step_command (s := placeNext s (.cmd w)) hd rfl rfl]
  rfl

end Sys2Proof.Machine

/-! PROOFS. Errors (60_exceptions.md): what raises them, what the ERROR phase ignores, the ways out of it, and the
internal errors that no step reaches. -/

namespace Sys2Proof.Machine

/-! ### Illegal words (60_exceptions.md R222, R226) -/

/-- A word with a field out of its range (30_encoding.md R73, R74, R77) decodes to no instruction. -/
theorem not_legal_of_fields {w : Word}
    (h : w.toNat / 2 ^ 3 % 2 ^ 21 ≠ 0 ∨ 3 < w.toNat / 2 ^ 24 ∨
      (w.toNat / 2 ^ 24 = 2 ∧ 4 < w.toNat % 2 ^ 3) ∨ (w.toNat / 2 ^ 24 ≠ 2 ∧ w.toNat % 2 ^ 3 ≠ 0)) :
    ¬ ∃ i : Instr, decode (.cmd w) = .ok i := by
  rw [legalWord_iff]
  omega

/-- A word that decodes to no instruction is ignored in ERROR (60_exceptions.md R225). -/
theorem illegalCommand_error {s : State} (h : s.engine.phase = .error) : illegalCommand s = s := by
  rw [illegalCommand, h]

/-- In the other two phases it raises ILLEGAL_COMMAND. -/
theorem illegalCommand_live {s : State} (h : s.engine.phase ≠ .error) :
    illegalCommand s = s.raise .illegalCommand := by
  rw [illegalCommand]
  cases hp : s.engine.phase with
  | error => exact absurd hp h
  | active | done => rfl

theorem commandWrite_illegal {w : Word} (h : ¬ ∃ i : Instr, decode (.cmd w) = .ok i) (s : State) :
    commandWrite w s = .next (illegalCommand s) := by
  rw [commandWrite]
  cases hd : decode (.cmd w) with
  | error => rfl
  | ok i => exact absurd ⟨i, hd⟩ h

/-- The step that serves a write to CMD, whether or not the word decodes (44_commands.md R190). -/
theorem step_commandWrite {s : State} {w : Word} {rest : List HostEvent} (hs : s.seq = none)
    (hp : s.pending = .write .word addrCmd w :: rest) : step s = commandWrite w (s.setPending rest) :=
  step_event hs hp

/-- Settles O12: the word decodes to no instruction, and the phase decides whether the error is raised. -/
theorem illegalWordRaisesIllegalCommand : Obligations.IllegalWordRaisesIllegalCommand := by
  intro s w rest hs hp opc rsv cnt hfields
  rw [step_commandWrite hs hp, commandWrite_illegal (not_legal_of_fields hfields)]
  constructor
  · intro hlive
    rw [illegalCommand_live (s := s.setPending rest) hlive]
    rfl
  · intro herror
    rw [illegalCommand_error (s := s.setPending rest) herror]
    rfl

/-! ### The ERROR phase (60_exceptions.md R225, R229) -/

/-- In ERROR a command other than INIT changes nothing: every other effect of a command has another phase
(60_exceptions.md R225). -/
theorem commandWrite_error {w : Word} {s : State} (h : s.engine.phase = .error) (hw : w ≠ 0x01000000) :
    commandWrite w s = .next s := by
  rcases commandWrite_cases w s with hc | ⟨hinit, -⟩ | ⟨hlive, -⟩ | ⟨hactive, -⟩ | ⟨hactive, -⟩
  · exact hc
  · exact absurd hinit hw
  · exact absurd h hlive
  all_goals cases h.symm.trans hactive

/-- Settles O13: the step takes the write from the waiting accesses, and the command changes nothing. -/
theorem errorPhaseIgnoresEveryCommandButInit : Obligations.ErrorPhaseIgnoresEveryCommandButInit :=
  fun s _ rest hs hp herror hw =>
    (step_commandWrite hs hp).trans (commandWrite_error (s := s.setPending rest) herror hw)

/-- INIT and the reset input leave the reinitialised engine (44_commands.md R192, 70_reset_and_hazards.md R250). -/
theorem step_reinit {s t : State} (hn : s.NextReinit) (h : step s = .next t) : t.engine = s.engine.reinit := by
  rcases hn with ⟨hs, hp⟩ | ⟨hs, hp⟩ <;> obtain ⟨rest, hp⟩ := List.head?_eq_some_iff.mp hp
  · rw [step_command (i := .init) (decode_encode (i := .init) rfl) hs hp] at h
    cases h
    rfl
  · rw [step_event hs hp] at h
    cases h
    rfl

/-- Of the effects a step can have, only a reinitialisation takes the engine out of ERROR: an error leaves it there, a
message is absorbed or finalized in ACTIVE alone, and the others keep the phase. -/
theorem StepEffect.reinit_of_leaves_error {s : State} {e : Engine} (he : StepEffect s e)
    (hs : s.engine.phase = .error) (h : e.phase ≠ .error) : s.NextReinit := by
  cases he with
  | reinitialised next => exact next
  | raised => exact absurd rfl h
  | absorbed _ _ _ active | finalized _ _ _ active => cases hs.symm.trans active
  | unchanged | dataWritten | fedForward => exact absurd hs h

/-- Settles O14: a step that leaves ERROR is a reinitialisation, and a reinitialisation enters ACTIVE. -/
theorem onlyInitOrResetLeavesTheErrorPhase : Obligations.OnlyInitOrResetLeavesTheErrorPhase := by
  intro s t h herror
  refine ⟨⟨(step_effect h).reinit_of_leaves_error herror, fun hn => ?_⟩, fun hn => ?_⟩ <;> rw [step_reinit hn h]
  · nofun
  · exact ⟨rfl, rfl, rfl, rfl⟩

/-! ### The internal errors (60_exceptions.md R223) -/

/-- A step keeps the error code, clears it, or records one of the two errors a host can cause. -/
theorem StepEffect.errcode {s : State} {e : Engine} (he : StepEffect s e) :
    e.errcode = s.engine.errcode ∨ e.errcode = 0 ∨ e.errcode = 3 ∨ e.errcode = 4 := by
  cases he with
  | reinitialised => exact .inr (.inl rfl)
  | raised _ _ _ code => exact .inr (.inr code)
  | unchanged | dataWritten | absorbed | finalized | fedForward => exact .inl rfl

/-- A step that gives no next state is refused by a policy, so it is no fault. -/
theorem step_ne_fault (s : State) (f : Fault) : step s ≠ .fault f := by
  rcases onlyAPolicyRefusesAStep s with ⟨t, h⟩ | ⟨h, -⟩ | ⟨h, -⟩ <;> rw [h] <;> nofun

/-- Settles O15: no step is a fault, and the codes a step writes are neither 1 nor 2. -/
theorem internalFaultsAreUnreachable : Obligations.InternalFaultsAreUnreachable := by
  intro s
  refine ⟨step_ne_fault s, fun t h hinternal => ?_⟩
  rcases (step_effect h).errcode with hkept | hwritten
  · exact hkept
  · have hdisjoint : ∀ c : BitVec 4, c = 0 ∨ c = 3 ∨ c = 4 → ¬(c = 1 ∨ c = 2) := by decide
    exact absurd hinternal (hdisjoint _ hwritten)

/-! ### Commands after FINALIZE (60_exceptions.md R227) -/

theorem execFinalize_done {s : State} (h : s.engine.phase = .done) :
    execFinalize s = .next (s.raise .useAfterFinalize) := by
  rw [execFinalize, h]

theorem execUpdate_done {s : State} {cnt : BitVec 3} (h : s.engine.phase = .done) (hc : cnt.toNat ≤ 4) :
    execUpdate cnt s = .next (s.raise .useAfterFinalize) := by
  simp only [execUpdate, h, if_pos hc]

/-- The STATUS word after USE_AFTER_FINALIZE: errcode 3 and phase ERROR (10_state.md R34). -/
theorem statusWord_useAfterFinalize {e : Engine} (hp : e.phase = .error) (hc : e.errcode = 3) :
    statusWord e = 0x00000034 := by
  rw [statusWord, hp, hc]
  rfl

/-- Settles O11: both commands enter the error in DONE, and error entry writes code 3 and the phase alone. -/
theorem useAfterFinalizeIsRaisedInDone : Obligations.UseAfterFinalizeIsRaisedInDone :=
  fun _ hp => ⟨execFinalize_done hp, fun _ hc => execUpdate_done hp hc, statusWord_useAfterFinalize rfl rfl⟩

/-! ### The idle machine (60_exceptions.md R238) -/

/-- Settles O51: the machine has a step for idling. -/
theorem idleMachineHoldsAllState : Obligations.IdleMachineHoldsAllState :=
  fun _ hs hp => step_idle hs hp

end Sys2Proof.Machine

/-! PROOFS. The reset input, and a transform taken one machine step at a time (70_reset_and_hazards.md). -/

namespace Sys2Proof.Machine

/-! ### A transform taken one machine step at a time (R260) -/

/-- The state after the last step of a transform that leaves w in the working registers: the feed-forward addition is
made (42_transform.md R144) and the transform is over. -/
def State.endTransform (s : State) (w : Quad) : State :=
  ((s.setWork w).setEngine (s.engine.setDs (s.engine.ds.add w))).setSeq none

/-- The step indices from i on are i and those from i + 1 on (10_state.md R28). -/
theorem stepOrder_drop (i : Fin 64) : stepOrder.drop i = i :: stepOrder.drop (i + 1 : Nat) := by
  have hi : i.val < stepOrder.length := by simp [stepOrder]
  rw [List.drop_eq_getElem_cons hi]
  simp [stepOrder]

/-- From step index i on, a transform ends after one machine step for each index left, by induction on their number
(10_state.md R28, 42_transform.md R142): every step but the last leaves a transform in progress at the next index. -/
theorem stepMany_of_seq (n : Nat) : ∀ {s : State} {i : Fin 64}, s.seq = some i → i.val + n = 63 →
    stepMany (n + 1) s =
      .next (s.endTransform ((stepOrder.drop i).foldl (fun q j => stepFn j q s.x) s.work)) := by
  induction n with
  | zero =>
    intro s i hs hi
    obtain rfl : i = 63 := Fin.ext hi
    rw [stepMany, step_transform hs]
    rfl
  | succ n ih =>
    intro s i hs hi
    have hnext : i.val + 1 < 64 := by omega
    rw [stepMany, step_transform hs, State.sequence, dif_pos hnext, andThen, ih rfl (by simp only; omega),
      stepOrder_drop i]
    rfl

/-- A transform begins only on a block of 64 bytes (42_transform.md R143). -/
theorem beginTransform_length {s t : State} {block : List Byte} (h : s.beginTransform block = .ok t) :
    block.length = 64 := by
  by_contra hlen
  rw [State.beginTransform, if_pos hlen] at h
  cases h

/-- Settles O29: the steps from index 0 on are all 64, run on the DigestState and the block's Words. -/
theorem sixtyFourMachineStepsCompleteATransform : Obligations.SixtyFourMachineStepsCompleteATransform := by
  intro s t0 block h
  have hlen := beginTransform_length h
  cases (beginTransform_eq s hlen).symm.trans h
  exact ⟨_, stepMany_of_seq 63 (i := 0) rfl rfl, blockTransform_eq s.engine.ds hlen, rfl⟩

/-! ### The reset input (R250) -/

/-- With no transform in progress the reset input is INIT (44_commands.md R192). -/
theorem exec_init_of_idle {s : State} (h : s.seq = none) : exec .init s = .next (resetInput s) := by
  rw [resetInput, State.setSeq, ← h]
  rfl

/-- Settles O4: the step serves the reset input, at the state with that event taken. -/
theorem resetInputHasTheEffectOfInit : Obligations.ResetInputHasTheEffectOfInit := by
  intro s rest hs hp
  have hstep : step s = exec .init (s.setPending rest) :=
    (step_event hs hp).trans (exec_init_of_idle (s := s.setPending rest) hs).symm
  exact ⟨hstep, hstep⟩

end Sys2Proof.Machine
